-- ==== Sys2Proof/Word.lean ====
section
/-! DEFINITION. The words of the block: the widths that `spec/30_encoding.md` and `spec/10_state.md` give to the
things software or a port sees as bits. -/

namespace Sys2Proof

/-- Eight bits: `intensity`, a checksum, one byte of the payload (R20, R52). -/
abbrev Byte := BitVec 8

/-- Four bits: the channel or action nibble, an operation number `opn` (R73, R74, R82). -/
abbrev Nibble := BitVec 4

/-- The `id` operand (R20). -/
abbrev DeviceId := BitVec 16

/-- The Command word on a port, `(id, channel, action, intensity)` from the top bit down (R20, R71). -/
abbrev CmdWord := BitVec 32

/-- An EncodedFrame as its number `W`: bit 42 is the first bit on the wire (R12, R25, R70). -/
abbrev Frame := BitVec 43

/-- A bit sequence in transmission order, position 0 first (R12). -/
abbrev BitSeq := List Bool

end Sys2Proof
end

