-- ==== Sys2Proof/Config.lean ====
section
/-! DEFINITION. What an implementation of the block fixes (R6), and the two values the spec leaves open.

The OPEN parameters of R6 are fields of `Params`; the machine's state carries one `Params`, which no step changes, so a
statement about every state is a statement about every choice of the parameters. -/

namespace Sys2Proof

/-- The OPEN parameters of R6, under the names of the table there (T_… constants in microseconds). -/
structure Params where
  /-- `TICK_HZ`, the emitter's fixed tick rate: the value on port `em_tick_hz` (R132, R43). -/
  tickHz : Nat
  /-- `DUR_W`, the width of one tick count (R134). -/
  durW : Nat
  /-- `QDEPTH`, the capacity of the queue counting the in-flight entry; `none` is unbounded (R151). -/
  qdepth : Option Nat
  /-- `NPROD`, the number of producer contexts (R207). -/
  nprod : Nat
  /-- `HAS_ABORT`, whether `ABORT` is exposed (R6, R160). -/
  hasAbort : Bool
  tSyncH : Nat
  tSyncL : Nat
  tOneH : Nat
  tOneL : Nat
  tZeroH : Nat
  tZeroL : Nat
  deriving DecidableEq, Repr

/-- The defaults of R6 and R131. -/
def Params.default : Params :=
  { tickHz := 1000000, durW := 16, qdepth := none, nprod := 1, hasAbort := true,
    tSyncH := 1400, tSyncL := 750, tOneH := 750, tOneL := 250, tZeroH := 250, tZeroL := 750 }

/-- FREE VALUE. Which of several simultaneous requests the arbiter serves next: the source leaves the order open
(R56, R201, D23). Applied to `State.freeCount` and reduced by the number of requests; nothing constrains it
(log entry 2). -/
opaque Config.arbiterChoice : Nat → Nat

/-- FREE VALUE. What `dec_cmd` carries when `dec_status` is not `Ok`: the port is "meaningful only when
`dec_status = 0`" (R43). Applied to `State.freeCount`; nothing constrains it (log entry 3). -/
opaque Config.freeDecCmd : Nat → CmdWord

end Sys2Proof
end

