-- ==== Sys2Proof/Syntax.lean ====
section
/-! DEFINITION. The operations of the block as terms: one constructor of `Instr` per row of `spec/opcode_table.json`,
with the operands the row's rule gives it, and the words that stand on the block's ports. -/

namespace Sys2Proof

/-- The channel of a Command: three values only (R21). -/
inductive Channel where
  | zero | one | two
  deriving DecidableEq, Repr

/-- The action of a Command: four values only (R22). -/
inductive Action where
  | shock | vibrate | beep | light
  deriving DecidableEq, Repr

/-- The Command record, immutable once built (R20). -/
structure Command where
  id : DeviceId
  channel : Channel
  action : Action
  intensity : Byte
  deriving DecidableEq, Repr

/-- The three errors `DECODE` returns as values (R190 to R194). -/
inductive DecodeError where
  | invalidChannel | invalidAction | checksumMismatch
  deriving DecidableEq, Repr

/-- The operations. `send` and `encode` hold the four operands as they stand on the ports `p_cmd` and `enc_cmd`, where
the two nibbles can be any four bits (R20, D4); `Instr.wellFormed` says when they are a Command. -/
inductive Instr where
  /-- `SHOCK id, channel, intensity` (R108). -/
  | shock (id : DeviceId) (channel : Channel) (intensity : Byte)
  /-- `VIBRATE id, channel, intensity` (R109). -/
  | vibrate (id : DeviceId) (channel : Channel) (intensity : Byte)
  /-- `BEEP id, channel, intensity` (R110). -/
  | beep (id : DeviceId) (channel : Channel) (intensity : Byte)
  /-- `LIGHT id, channel, intensity` (R111). -/
  | light (id : DeviceId) (channel : Channel) (intensity : Byte)
  /-- `NOP` (R162). -/
  | nop
  /-- `SEND id, channel, action, intensity` (R155). -/
  | send (id : DeviceId) (channel : Nibble) (action : Nibble) (intensity : Byte)
  /-- `ENQ frame` (R153). -/
  | enq (frame : Frame)
  /-- `ABORT` (R160). -/
  | abort
  /-- `COMPLETE` (R159). -/
  | complete
  /-- `EMIT_DONE` (R158). -/
  | emitDone
  /-- `START frame` (R156). -/
  | start (frame : Frame)
  /-- `RESET` (R230). -/
  | reset
  /-- `ENCODE id, channel, action, intensity` (R104). -/
  | encode (id : DeviceId) (channel : Nibble) (action : Nibble) (intensity : Byte)
  /-- `DECODE bits` (R106). -/
  | decode (bits : BitSeq)
  /-- `TOSIGNAL frame` (R136). -/
  | toSignal (frame : Frame)
  /-- `CHECKSUM b0, b1, b2, b3` (R100). -/
  | checksum (b0 b1 b2 b3 : Byte)
  /-- `TICKS us` (R133). -/
  | ticks (us : Nat)
  /-- `INIT` (R231). -/
  | init
  deriving DecidableEq, Repr

/-- The operands that stand beside a label (R43): `cmd` is `enc_cmd`, `frame` is `map_frame` or the operand of `START`,
`bits` is `dec_bits`. `CHECKSUM` and `TICKS` have no port of their own; their operands stand in `cmd` (first byte on top)
and `us` (log entry 6). -/
structure OperandPorts where
  cmd : CmdWord
  frame : Frame
  bits : BitSeq
  us : Nat
  deriving DecidableEq, Repr

/-- Every operand port at zero. -/
def OperandPorts.zero : OperandPorts := { cmd := 0, frame := 0, bits := [], us := 0 }

/-- What a request presents: the word of a wire action (format `FRAME43`), or an operation number (format `OP`). The
number is a value on the port `p_op` for the four producer operations and a label for the rest, which have ports or
strobes of their own (R82): the two are told apart, so that no value on `p_op` is a pure function (R83). -/
inductive PortWord where
  /-- A 43-bit frame word standing for its wire action (R76). -/
  | wire (frame : Frame)
  /-- A value on `p_op`, with what stands on `p_cmd` and `p_frame` (R43). -/
  | pOp (opn : Nibble) (cmd : CmdWord) (frame : Frame)
  /-- The port or strobe whose operation has this number as its label (R82, R43): `0x4` is `k_complete`, `0x5` `em_done`,
  `0x7` `rst`, `0x8` `enc_cmd`, `0x9` `dec_bits`, `0xA` `map_frame`, `0xD` `init`; `0x6`, `0xB` and `0xC` have no port. -/
  | label (opn : Nibble) (ports : OperandPorts)
  /-- A bit pattern wider than its format, which no port can carry. -/
  | tooWide (bits : Nat)
  deriving DecidableEq, Repr

/-- Why a word presents no operation. -/
inductive Reject where
  /-- `opn` is `0xE` or `0xF`, which name no operation (R83). -/
  | reservedOpn
  /-- A value `0x4` to `0xD` on `p_op`: it names an operation a producer may not perform there (R83). -/
  | notAProducerOperation
  /-- A label `0x0` to `0x3`: the producer operations have no port but `p_op` (R82, R43). -/
  | producerOperation
  /-- The frame word is not a valid frame of any wire action (R76, R80). -/
  | badFrame (e : DecodeError)
  /-- The pattern is wider than its format. -/
  | tooWide
  deriving DecidableEq, Repr

/-- The agents (R9): who can present a request. -/
inductive Agent where
  | producer (p : Nat)
  | completion
  | emitter
  | host
  deriving DecidableEq, Repr

/-- In whose context an operation is performed (R205): an agent's, or `inside` the atomic step of another operation, the
only place where `START` and `TICKS` happen (R82, R156). No request is made from `inside` (log entry 5). -/
inductive Context where
  | producer (p : Nat)
  | completion
  | emitter
  | host
  | inside
  deriving DecidableEq, Repr

/-- The context in which an agent's request is performed. -/
def Agent.context : Agent → Context
  | .producer p => .producer p
  | .completion => .completion
  | .emitter => .emitter
  | .host => .host

/-- One agent's request: who presents it and what stands on its port. -/
structure Request where
  agent : Agent
  word : PortWord
  deriving DecidableEq, Repr

end Sys2Proof
end

