-- ==== Sys2Proof/WellFormed.lean ====
section
/-! DEFINITION. When an operation's operands are among those its rule admits. -/

namespace Sys2Proof

/-- A channel nibble that is a channel (R21, R73). -/
def channelLegal (n : Nibble) : Bool := decide (n.toNat ≤ 2)

/-- An action nibble that is an action (R22, R74). -/
def actionLegal (n : Nibble) : Bool := decide (1 ≤ n.toNat ∧ n.toNat ≤ 4)

/-- The shortest sequence `DECODE` takes (R106, `DECODE_MIN_BITS` of R6). -/
abbrev decodeMinBits : Nat := 40

/-- The operands are in the sets their rule gives: a Command for `SEND` and `ENCODE` (R104, R155), at least 40 bits for
`DECODE` (R106). Every other operand admits every value of its type. -/
def Instr.wellFormed : Instr → Bool
  | .shock _ _ _ => true
  | .vibrate _ _ _ => true
  | .beep _ _ _ => true
  | .light _ _ _ => true
  | .nop => true
  | .send _ channel action _ => channelLegal channel && actionLegal action
  | .enq _ => true
  | .abort => true
  | .complete => true
  | .emitDone => true
  | .start _ => true
  | .reset => true
  | .encode _ channel action _ => channelLegal channel && actionLegal action
  | .decode bits => decide (decodeMinBits ≤ bits.length)
  | .toSignal _ => true
  | .checksum _ _ _ _ => true
  | .ticks _ => true
  | .init => true

end Sys2Proof
end

