-- ==== Sys2Proof/Machine/Operands.lean ====
section
/-! DEFINITION. The operand forms: bit sequences, the fields of a frame, the Command word and its bytes, and the
Command operands as they stand on a port. Notation: R12. -/

namespace Sys2Proof

/-- `be_N(v)`: the `N`-long sequence that spells `v`, most significant bit first (R12). -/
def be (n v : Nat) : BitSeq := (List.range n).map fun k => v.testBit (n - 1 - k)

/-- `val(s)`: the number whose most significant bit is `s(0)` (R12). -/
def val (s : BitSeq) : Nat := s.foldl (fun acc b => 2 * acc + b.toNat) 0

/-- `s(a .. a+n-1)` (R12). -/
def slice (s : BitSeq) (a n : Nat) : BitSeq := (s.drop a).take n

/-- The field of width `n` at position `a`, `val(s(a .. a+n-1))` (R51, R70). -/
def field (s : BitSeq) (a n : Nat) : BitVec n := BitVec.ofNat n (val (slice s a n))

/-- `f(i) = W[42-i]` (R12). -/
def frameBit (w : Frame) (i : Nat) : Bool := w.getMsbD i

/-- A frame as the sequence `f(0) .. f(42)` (R12, R25). -/
def frameBits (w : Frame) : BitSeq := (List.range 43).map (frameBit w)

/-- `Zero→0000, One→0001, Two→0010` (R21, R73). -/
def Channel.nibble : Channel → Nibble
  | .zero => 0
  | .one => 1
  | .two => 2

/-- The channel a nibble names; 3 to 15 name none (R73). -/
def Channel.ofNibble (n : Nibble) : Option Channel :=
  match n.toNat with
  | 0 => some .zero
  | 1 => some .one
  | 2 => some .two
  | _ => none

/-- `Shock→0001, Vibrate→0010, Beep→0011, Light→0100` (R22, R74). -/
def Action.nibble : Action → Nibble
  | .shock => 1
  | .vibrate => 2
  | .beep => 3
  | .light => 4

/-- The action a nibble names; 0 and 5 to 15 name none (R74). -/
def Action.ofNibble (n : Nibble) : Option Action :=
  match n.toNat with
  | 1 => some .shock
  | 2 => some .vibrate
  | 3 => some .beep
  | 4 => some .light
  | _ => none

/-- The four operands of a port as a Command, where they are one (R20 to R24, R104). -/
def Command.ofPorts (id : DeviceId) (channel action : Nibble) (intensity : Byte) : Option Command :=
  match Channel.ofNibble channel, Action.ofNibble action with
  | some c, some a => some { id := id, channel := c, action := a, intensity := intensity }
  | _, _ => none

/-- `cmd[31:0] = (id, channel, action, intensity)` from its four fields (R20, R71). -/
def packPorts (id : DeviceId) (channel action : Nibble) (intensity : Byte) : CmdWord :=
  id ++ channel ++ action ++ intensity

/-- The Command word (R71, `PACK` of R103). -/
def Command.word (c : Command) : CmdWord :=
  packPorts c.id c.channel.nibble c.action.nibble c.intensity

/-- The fields of a Command word on a port (R20). -/
def portId (w : CmdWord) : DeviceId := w.extractLsb' 16 16
/-- The channel nibble of a Command word (R20). -/
def portChannel (w : CmdWord) : Nibble := w.extractLsb' 12 4
/-- The action nibble of a Command word (R20). -/
def portAction (w : CmdWord) : Nibble := w.extractLsb' 8 4
/-- The intensity of a Command word (R20). -/
def portIntensity (w : CmdWord) : Byte := w.extractLsb' 0 8

/-- Byte `B_k` of a 32-bit word, `B_0` on top (R52, R103). -/
def payloadByte (w : CmdWord) (k : Nat) : Byte := w.extractLsb' (24 - 8 * k) 8

end Sys2Proof
end

