-- ==== Sys2Proof/Machine/Codec.lean ====
section
/-! DEFINITION. PacketCodec: `CHECKSUM`, `ENCODE` and `DECODE` as pure functions (`spec/40_codec.md`). They hold no
state (R8). -/

namespace Sys2Proof

/-- `CHECKSUM b0, b1, b2, b3`: the exact 10-bit sum, reduced modulo 256 (R100). -/
def checksum (b0 b1 b2 b3 : Byte) : Byte :=
  let s : BitVec 10 := b0.setWidth 10 + b1.setWidth 10 + b2.setWidth 10 + b3.setWidth 10
  s.extractLsb' 0 8

/-- The checksum of a Command word: over its four bytes in order (R78, R103). -/
def wordChecksum (w : CmdWord) : Byte :=
  checksum (payloadByte w 0) (payloadByte w 1) (payloadByte w 2) (payloadByte w 3)

/-- `ENCODE`: `W = (cmd, k, 000)` (R104). -/
def encodeFrame (c : Command) : Frame :=
  c.word ++ wordChecksum c.word ++ (0 : BitVec 3)

/-- `DECODE`: the four steps in the source's order, on the first 40 bits (R106, R200). The length test is the
meaning's. -/
def decodeBits (s : BitSeq) : Except DecodeError Command :=
  match Channel.ofNibble (field s 16 4) with
  | none => .error .invalidChannel
  | some channel =>
    match Action.ofNibble (field s 20 4) with
    | none => .error .invalidAction
    | some action =>
      if checksum (field s 0 8) (field s 8 8) (field s 16 8) (field s 24 8) = field s 32 8 then
        .ok { id := field s 0 16, channel := channel, action := action, intensity := field s 24 8 }
      else
        .error .checksumMismatch

/-- `DECODE` of a frame's 43 bits (R81). -/
def decodeFrame (w : Frame) : Except DecodeError Command := decodeBits (frameBits w)

/-- The `dec_status` codes of R43 and R190. -/
def DecodeError.code : DecodeError → BitVec 2
  | .invalidChannel => 1
  | .invalidAction => 2
  | .checksumMismatch => 3

end Sys2Proof
end

