-- ==== Sys2Proof/Decode.lean ====
section
/-! DEFINITION. From the words on the ports to operations and back: the `FRAME43` rows by `DECODE` (R76, R80), the `OP`
rows by their operation number, on `p_op` or as a label (R82, R83). The encoder is written from the same tables. -/

namespace Sys2Proof

/-- The wire action of a valid frame's Command (R76, R108 to R111). -/
def wireInstr (c : Command) : Instr :=
  match c.action with
  | .shock => .shock c.id c.channel c.intensity
  | .vibrate => .vibrate c.id c.channel c.intensity
  | .beep => .beep c.id c.channel c.intensity
  | .light => .light c.id c.channel c.intensity

/-- The operation a value on `p_op` names, with its operand from `p_cmd` or `p_frame` (R82, R83). -/
def decodePOp (opn : Nibble) (cmd : CmdWord) (frame : Frame) : Except Reject Instr :=
  match opn.toNat with
  | 0x0 => .ok .nop
  | 0x1 => .ok (.send (portId cmd) (portChannel cmd) (portAction cmd) (portIntensity cmd))
  | 0x2 => .ok (.enq frame)
  | 0x3 => .ok .abort
  | 0xE => .error .reservedOpn
  | 0xF => .error .reservedOpn
  | _ => .error .notAProducerOperation

/-- The operation a label names, with its operands from the ports its rule names (R82). -/
def decodeLabel (opn : Nibble) (o : OperandPorts) : Except Reject Instr :=
  match opn.toNat with
  | 0x4 => .ok .complete
  | 0x5 => .ok .emitDone
  | 0x6 => .ok (.start o.frame)
  | 0x7 => .ok .reset
  | 0x8 => .ok (.encode (portId o.cmd) (portChannel o.cmd) (portAction o.cmd) (portIntensity o.cmd))
  | 0x9 => .ok (.decode o.bits)
  | 0xA => .ok (.toSignal o.frame)
  | 0xB => .ok (.checksum (payloadByte o.cmd 0) (payloadByte o.cmd 1) (payloadByte o.cmd 2) (payloadByte o.cmd 3))
  | 0xC => .ok (.ticks o.us)
  | 0xD => .ok .init
  | 0xE => .error .reservedOpn
  | 0xF => .error .reservedOpn
  | _ => .error .producerOperation

/-- The decoder, total on any word and rejecting by name. -/
def decode : PortWord → Except Reject Instr
  | .wire w =>
    match decodeFrame w with
    | .ok c => .ok (wireInstr c)
    | .error e => .error (.badFrame e)
  | .pOp opn cmd frame => decodePOp opn cmd frame
  | .label opn o => decodeLabel opn o
  | .tooWide _ => .error .tooWide

/-- The frame word of a wire action (R108 to R111). -/
def wireFrame (id : DeviceId) (channel : Channel) (action : Action) (intensity : Byte) : Frame :=
  encodeFrame { id := id, channel := channel, action := action, intensity := intensity }

/-- The encoder: every operand on its port, every other port at zero. -/
def encode : Instr → PortWord
  | .shock id channel intensity => .wire (wireFrame id channel .shock intensity)
  | .vibrate id channel intensity => .wire (wireFrame id channel .vibrate intensity)
  | .beep id channel intensity => .wire (wireFrame id channel .beep intensity)
  | .light id channel intensity => .wire (wireFrame id channel .light intensity)
  | .nop => .pOp 0x0 0 0
  | .send id channel action intensity => .pOp 0x1 (packPorts id channel action intensity) 0
  | .enq frame => .pOp 0x2 0 frame
  | .abort => .pOp 0x3 0 0
  | .complete => .label 0x4 .zero
  | .emitDone => .label 0x5 .zero
  | .start frame => .label 0x6 { OperandPorts.zero with frame := frame }
  | .reset => .label 0x7 .zero
  | .encode id channel action intensity =>
    .label 0x8 { OperandPorts.zero with cmd := packPorts id channel action intensity }
  | .decode bits => .label 0x9 { OperandPorts.zero with bits := bits }
  | .toSignal frame => .label 0xA { OperandPorts.zero with frame := frame }
  | .checksum b0 b1 b2 b3 => .label 0xB { OperandPorts.zero with cmd := b0 ++ b1 ++ b2 ++ b3 }
  | .ticks us => .label 0xC { OperandPorts.zero with us := us }
  | .init => .label 0xD .zero

/-- The port word of a row of `spec/opcode_table.json`: a `FRAME43` row has 43 bits (six bytes), an `OP` row the four
bits of `opn` in one byte, which stand on `p_op` but for the numbers `0x4` to `0xD`, which are labels (R82). Bits from 8
up of an `OP` word are its operand, on every operand port at once, with the 40-bit fixed form of `dec_bits` (R43); the
table's own words leave them zero (log entry 6). -/
def tableWord (nbits w : Nat) : PortWord :=
  if 43 ≤ nbits ∧ nbits ≤ 48 then
    if w < 2 ^ 43 then .wire (BitVec.ofNat 43 w) else .tooWide w
  else if w / 16 % 16 ≠ 0 then .tooWide w
  else if 0x4 ≤ w % 16 ∧ w % 16 ≤ 0xD then
    .label (BitVec.ofNat 4 w)
      { cmd := BitVec.ofNat 32 (w / 256), frame := BitVec.ofNat 43 (w / 256), bits := be 40 (w / 256), us := w / 256 }
  else .pOp (BitVec.ofNat 4 w) (BitVec.ofNat 32 (w / 256)) (BitVec.ofNat 43 (w / 256))

/-- The instruction this decoder reads from an opcode-table word. -/
def decodeTableWord (nbits w : Nat) : Option Instr :=
  match decode (tableWord nbits w) with
  | .ok i => some i
  | .error _ => none

/-- Who performs an operation by R205 and R82: the agent whose port carries it. For what several agents may perform it
is producer 0. No agent performs `START` and `TICKS`, which happen inside another operation: a word of theirs stands as
the host's request and has no step (R205; log entry 5). -/
def performerOf : Instr → Agent
  | .complete => .completion
  | .emitDone => .emitter
  | .start _ => .host
  | .ticks _ => .host
  | .reset => .host
  | .init => .host
  | .shock _ _ _ => .producer 0
  | .vibrate _ _ _ => .producer 0
  | .beep _ _ _ => .producer 0
  | .light _ _ _ => .producer 0
  | .nop => .producer 0
  | .send _ _ _ _ => .producer 0
  | .enq _ => .producer 0
  | .abort => .producer 0
  | .encode _ _ _ _ => .producer 0
  | .decode _ => .producer 0
  | .toSignal _ => .producer 0
  | .checksum _ _ _ _ => .producer 0

/-- The request that presents an opcode-table word on the port of its performer; a word that presents no operation
stands on producer 0's port. -/
def tableRequest (nbits w : Nat) : Request :=
  { agent := match decode (tableWord nbits w) with
      | .ok i => performerOf i
      | .error _ => .producer 0,
    word := tableWord nbits w }

end Sys2Proof
end

