-- ==== Sys2Proof/Machine/State.lean ====
section
/-! DEFINITION. The state of the block (`spec/10_state.md`), its reset value, and the reasons a step can stop. -/

namespace Sys2Proof.Machine

/-- What register `fault` holds (R31). -/
inductive FaultReg where
  | none
  | invariantViolation
  deriving DecidableEq, Repr

/-- The events of the history `log` (R38). -/
inductive Event where
  /-- `EvEnq(frame)` -/
  | enq (frame : Frame)
  /-- `EvStart(frame)` -/
  | start (frame : Frame)
  /-- `EvDone(frame)` -/
  | done (frame : Frame)
  /-- `EvComplete(frame)` -/
  | complete (frame : Frame)
  /-- `EvAbort(n)`, `n` the number of entries dropped -/
  | abort (n : Nat)
  /-- `EvFault` -/
  | fault
  deriving DecidableEq, Repr

/-- One pulse pair: high for `high` ticks, then low for `low` ticks (R26, R84). -/
structure Symbol where
  high : Nat
  low : Nat
  deriving DecidableEq, Repr

/-- A PulseTrain: `sym(0)` first (R26). -/
abbrev PulseTrain := List Symbol

/-- The seven configuration registers (R34). A tick count is `DUR_W` bits wide, a parameter; it is held as a number and
`Cfg.wellFormed` says that it fits. -/
structure Cfg where
  tickHz : Nat
  syncH : Nat
  syncL : Nat
  oneH : Nat
  oneL : Nat
  zeroH : Nat
  zeroL : Nat
  deriving DecidableEq, Repr

/-- The output ports of R43 that are not views of other state: what the step just taken put on them, and no memory of an
earlier one. A result port carries the value a call returns, `none` where none returns: a decode error is "held nowhere
after the call returns" (R31), and frames and trains are values, not state (R25, R26). `sum` and `tickCount` carry the
results of `CHECKSUM` and `TICKS`, which have no port (R82; log entry 6). -/
structure Outputs where
  /-- `p_ack` of the producer that `State.agent` names; 0 at every other producer (R43). -/
  pAck : Bool
  /-- `em_start`, a strobe (R43). -/
  emStart : Bool
  /-- `em_train`, valid with `em_start` (R43). -/
  emTrain : Option PulseTrain
  /-- `enc_frame` (R43). -/
  encFrame : Option Frame
  /-- `dec_status` (R43, R190). -/
  decStatus : Option (BitVec 2)
  /-- `dec_cmd`, meaningful only when `dec_status = 0` (R43). -/
  decCmd : Option CmdWord
  /-- `map_train` (R43). -/
  mapTrain : Option PulseTrain
  /-- The result of the last `CHECKSUM`. -/
  sum : Option Byte
  /-- The result of the last `TICKS`. -/
  tickCount : Option Nat
  deriving DecidableEq, Repr

/-- The state of the block. The fields down to `log` are the spec's state (R40); `par` holds the parameters (R6), which
no step changes; the rest is the model's: the inputs that stand at the ports (R41, R43), whose request is being
served, what the output ports carry, and the counter of the free values. -/
structure State where
  /-- Frames not yet completion-notified, the in-flight one at the front (R28). -/
  queue : List Frame
  /-- The "transmission active" flag (R29). -/
  active : Bool
  /-- The sticky fault register (R31). -/
  fault : FaultReg
  /-- The completion latch, the level `k_irq` (R32). -/
  donePending : Bool
  /-- A train is being emitted (R33). -/
  emBusy : Bool
  /-- The frame whose train is being emitted, meaningful while `emBusy` (R33). -/
  emFrame : Frame
  /-- `INIT` has been performed (R44). -/
  initialised : Bool
  /-- The configuration registers (R34), meaningful while `initialised`. -/
  cfg : Cfg
  /-- The event history (R38). -/
  log : List Event
  /-- The parameters of R6; `par.tickHz` is the value on `em_tick_hz`. -/
  par : Params
  /-- In whose context the operation is performed: the agent whose request is being served (R9, R205). -/
  agent : Context
  /-- The requests still to come, in the order in which they are presented; the members of one inner list stand at the
  ports at the same time (R56, R85). -/
  program : List (List Request)
  /-- What the step just taken put on the output ports (R43). -/
  out : Outputs
  /-- How many requests have been served: the argument of the free values of `Config`. -/
  freeCount : Nat
  deriving DecidableEq, Repr

/-- Every configuration register at zero: the model's value for "unspecified" (log entry 1). -/
def Cfg.zero : Cfg := { tickHz := 0, syncH := 0, syncL := 0, oneH := 0, oneL := 0, zeroH := 0, zeroL := 0 }

/-- The output ports at rest: no strobe, and no call returns a value (log entry 10). -/
def Outputs.rest : Outputs :=
  { pAck := false, emStart := false, emTrain := none, encFrame := none, decStatus := none, decCmd := none,
    mapTrain := none, sum := none, tickCount := none }

/-- The block right after `RESET` (R40), with the default parameters (R6) and nothing requested. -/
def State.reset : State :=
  { queue := [], active := false, fault := .none, donePending := false, emBusy := false, emFrame := 0,
    initialised := false, cfg := Cfg.zero, log := [], par := Params.default, agent := .host, program := [],
    out := Outputs.rest, freeCount := 0 }

/-- Why the model stops with a fault. -/
inductive Fault where
  /-- A `START` would read the configuration registers before `INIT` has written them: "A model must treat a read of
  either before it is written as a fault of the model, not as zero" (R233). Raised by `START` outside any queue
  operation. Safe: the model stops. -/
  | configurationUnwritten
  deriving DecidableEq, Repr

/-- Why the model takes no step. All are safe: the spec gives the situation no step (`refuse`, R12), and a claim about
what follows cannot be proved. `InvariantViolation` is none of these: it is a next state (R196). -/
inductive Refusal where
  /-- Raised by an arm of `exec` without a meaning; no arm has it. Safe. -/
  | notModelled (mnemonic : String)
  /-- The word on the port presents no operation (R80, R83, U15). Raised by `step`. Safe. -/
  | noOperation (why : Reject)
  /-- The request comes from a producer number that is not below `NPROD` (R9, R207). Raised by every operation. Safe. -/
  | noSuchProducer
  /-- The agent is not among those R205 lists for the operation (U15). Raised by every operation. Safe. -/
  | agentNotAllowed
  /-- `fault` is set and the operation is not enabled (R197, U11). Raised by every operation but `RESET` and the pure
  functions. Safe. -/
  | halted
  /-- `initialised` is false and the operation is not enabled (R44). Raised by the queue operations and `TOSIGNAL`. Safe. -/
  | notInitialised
  /-- A second `INIT` without a `RESET` between (R231, U6). Safe. -/
  | alreadyInitialised
  /-- `RESET` or `INIT` while a train is in flight or frames are queued (R239, U6). Safe. -/
  | workPending
  /-- `INIT` would load a configuration that is not well formed (R35, U10). Safe. -/
  | illFormedConfiguration
  /-- `ENQ` or `SEND` into a full finite queue (R151, U3). Safe. -/
  | queueFull
  /-- `SEND` or `ENCODE` of a channel or action outside its set (R104, U1). Safe. -/
  | notACommand
  /-- `DECODE` of fewer than 40 bits (R106, U2). Safe. -/
  | shortSequence
  /-- `EMIT_DONE` with no train being emitted (R157, R158, U8). Safe. -/
  | emitterIdle
  /-- `ABORT` in a block that does not expose it (R160). Safe. -/
  | abortNotExposed
  deriving DecidableEq, Repr

end Sys2Proof.Machine
end

