-- ==== Sys2Proof/Machine/Flags.lean ====
section
/-! DEFINITION. What is read off the state: the status views and derived values of `spec/10_state.md`, and the conditions
under which operations are enabled. -/

namespace Sys2Proof.Machine

/-- The queue's machine (R30). -/
inductive QState where
  | idle
  | transmitting
  deriving DecidableEq, Repr

/-- `qstate`, read off `active` (R30). -/
def State.qstate (s : State) : QState := if s.active then .transmitting else .idle

/-- `st_active` (R36). -/
def State.stActive (s : State) : Bool := s.active

/-- `st_qlen` (R36). -/
def State.stQlen (s : State) : Nat := s.queue.length

/-- `st_fault` (R36, R43: one bit). -/
def State.stFault (s : State) : Bool := decide (s.fault ≠ .none)

/-- `k_irq = done_pending` (R43, R198). -/
def State.kIrq (s : State) : Bool := s.donePending

/-- `p_ack` of producer `p`: given in the step that performed its request, and to no other producer (R43). -/
def State.pAckOf (s : State) (p : Nat) : Bool := s.out.pAck && decide (s.agent = .producer p)

/-- The backlog: the queue without its in-flight front entry (R28, C5). -/
def State.backlog (s : State) : List Frame := if s.active then s.queue.tail else s.queue

/-- `fault = None`. -/
def State.healthy (s : State) : Bool := decide (s.fault = .none)

/-- The queue has room for one more entry (R151). -/
def State.hasRoom (s : State) : Bool :=
  match s.par.qdepth with
  | none => true
  | some d => decide (s.queue.length < d)

/-- A train is in flight or a frame is queued (R11, R239, U6). -/
def State.workPending (s : State) : Bool := s.active || !s.queue.isEmpty || s.emBusy || s.donePending

/-- The requesting agent exists: `P(p)` with `0 <= p < NPROD`, or another agent (R9, R207). -/
def State.agentExists (s : State) : Bool :=
  match s.agent with
  | .producer p => decide (p < s.par.nprod)
  | _ => true

/-- The requesting agent is a producer (R205, rows `SEND`, `ENQ`, `ABORT`, `NOP`). -/
def State.byProducer (s : State) : Bool :=
  match s.agent with
  | .producer _ => true
  | _ => false

/-- The requesting agent may perform a pure function: anyone but the emitter (R205, R82). -/
def State.byPureUser (s : State) : Bool :=
  match s.agent with
  | .emitter => false
  | _ => true

/-- A tick count the peripheral can hold (R34, R134). -/
def representable (durW count : Nat) : Bool := decide (1 ≤ count ∧ count ≤ 2 ^ durW - 1)

/-- The configuration is well formed (R35). -/
def Cfg.wellFormed (durW : Nat) (c : Cfg) : Bool :=
  representable durW c.syncH && representable durW c.syncL && representable durW c.oneH &&
  representable durW c.oneL && representable durW c.zeroH && representable durW c.zeroL &&
  decide (c.zeroH < c.oneH) && decide (c.oneH < c.syncH) && decide (c.oneL < c.zeroL)

/-- A value of a ranged constant (R131). -/
def inRange (lo hi v : Nat) : Bool := decide (lo ≤ v ∧ v ≤ hi)

/-- The parameters are among those R6 and R131 admit. -/
def paramsAdmitted (p : Params) : Bool :=
  decide (1 ≤ p.tickHz) && decide (1 ≤ p.durW) && decide (1 ≤ p.nprod) &&
  (match p.qdepth with
    | none => true
    | some d => decide (1 ≤ d)) &&
  inRange 1400 1400 p.tSyncH && inRange 750 800 p.tSyncL && inRange 750 800 p.tOneH &&
  inRange 250 300 p.tOneL && inRange 250 300 p.tZeroH && inRange 750 800 p.tZeroL

end Sys2Proof.Machine
end

