-- ==== Sys2Proof/Machine/PulseMap.lean ====
section
/-! DEFINITION. PulseMap: `TICKS`, `SYMBOL`, `TOSIGNAL` as pure functions of their operands and the configuration
(`spec/41_pulsemap.md`), and the waveform a train puts on the line (R165). -/

namespace Sys2Proof.Machine

/-- `TICKS us`: the nearest tick count, a tie going up, in exact integers (R133, D16). -/
def ticks (tickHz us : Nat) : Nat := (us * tickHz + 500000) / 1000000

/-- The configuration `INIT` loads: the six constants in ticks of the emitter's rate (R231, R34). -/
def loadedCfg (p : Params) : Cfg :=
  { tickHz := p.tickHz,
    syncH := ticks p.tickHz p.tSyncH, syncL := ticks p.tickHz p.tSyncL,
    oneH := ticks p.tickHz p.tOneH, oneL := ticks p.tickHz p.tOneL,
    zeroH := ticks p.tickHz p.tZeroH, zeroL := ticks p.tickHz p.tZeroL }

/-- `SYNC()` (R135). -/
def syncSymbol (c : Cfg) : Symbol := { high := c.syncH, low := c.syncL }

/-- `SYMBOL b` (R135). -/
def symbol (c : Cfg) (b : Bool) : Symbol :=
  if b then { high := c.oneH, low := c.oneL } else { high := c.zeroH, low := c.zeroL }

/-- `TOSIGNAL f`: the sync marker, then one symbol per bit in frame order (R136). -/
def toSignal (c : Cfg) (f : Frame) : PulseTrain := syncSymbol c :: (frameBits f).map (symbol c)

/-- `wave(t)`: the (level, duration) entries of a train, high before low in each symbol (R165). -/
def wave (t : PulseTrain) : List (Bool × Nat) := t.flatMap fun y => [(true, y.high), (false, y.low)]

/-- The length of a train in ticks (R137). -/
def trainTicks (t : PulseTrain) : Nat := (t.map fun y => y.high + y.low).sum

/-- What the pulse-output line does between two steps: it is low, or it goes through the entries of a train (R165).
The position inside the train is not state (R27, D6). -/
inductive LineDrive where
  | low
  | carrying (entries : List (Bool × Nat))
  deriving DecidableEq, Repr

/-- `line`: low whenever the emitter is not emitting, else the waveform of the frame in flight (R165). -/
def State.line (s : State) : LineDrive :=
  if s.emBusy then .carrying (wave (toSignal s.cfg s.emFrame)) else .low

/-- The frames of the `EvStart` events, in order (R38). -/
def startedFrames (log : List Event) : List Frame :=
  log.filterMap fun e =>
    match e with
    | .start f => some f
    | _ => none

/-- What the line has carried over the run: one waveform per `EvStart`, low gaps of unspecified length between (R165,
R172). -/
def State.lineHistory (s : State) : List (List (Bool × Nat)) :=
  (startedFrames s.log).map fun f => wave (toSignal s.cfg f)

end Sys2Proof.Machine
end

