-- ==== Sys2Proof/Machine/Ops.lean ====
section
/-! DEFINITION. The shared operations the meanings are written over: enabling conditions, the four queue primitives, the
event history, the fatal fault's entry, `START`, and the atomic queue operations (`spec/42_queue.md`). -/

namespace Sys2Proof.Machine

/-- What a meaning answers. -/
abbrev Result := Host.Outcome State Fault Refusal

/-- Goes on only if every condition holds; the first that does not names the refusal. -/
def require : List (Bool × Refusal) → Result → Result
  | [], go => go
  | (ok, why) :: more, go => if ok then require more go else .refused why

/-- The enabling conditions on the requesting agent: it exists and R205 lists it. -/
def allowed (s : State) (listed : Bool) : List (Bool × Refusal) :=
  [(s.agentExists, .noSuchProducer), (listed, .agentNotAllowed)]

/-- "enabled only if fault = None and initialised = true" (R153, R159, R160). -/
def running (s : State) : List (Bool × Refusal) :=
  [(s.healthy, .halted), (s.initialised, .notInitialised)]

/-- Why an atomic operation ends without its effect. -/
inductive Stop where
  /-- `raise InvariantViolation` (R195). -/
  | raised
  /-- A read the spec forbids (R233). -/
  | forbidden (r : Fault)
  deriving DecidableEq, Repr

/-- An atomic operation: the state it leaves, or why it ends. -/
abbrev Atomic := Except Stop State

/-- `log <- log ++ [ev]` (R12, R38). -/
def State.record (s : State) (e : Event) : State := { s with log := s.log ++ [e] }

/-- `p_ack <- 1` (R153, R160). -/
def State.acknowledge (s : State) : State := { s with out := { s.out with pAck := true } }

/-- TAKING THE EXCEPTION: `fault <- InvariantViolation` and `EvFault` logged, no acknowledgement and no start; nothing
is saved, no handler is entered, the emitter is not stopped (R196). Applied to the state BEFORE the raising step, so
every other write of the step is discarded. There is no return but `RESET` (R197). -/
def State.raiseInvariantViolation (s : State) : State :=
  { s with
    fault := .invariantViolation, log := s.log ++ [.fault],
    out := { s.out with pAck := false, emStart := false } }

/-- The outcome of an atomic operation tried from `s` (R10, R196). -/
def settle (s : State) : Atomic → Result
  | .ok t => .next t
  | .error .raised => .next s.raiseInvariantViolation
  | .error (.forbidden r) => .fault r

/-- `push_back(queue, e)` (R12). -/
def pushBack (q : List Frame) (f : Frame) : List Frame := q ++ [f]

/-- The writes of `START(f)`: the train on `em_train`, the strobe, the emitter busy with `f`, `EvStart(f)` logged (R156). -/
def State.started (s : State) (f : Frame) : State :=
  { s with
    emBusy := true, emFrame := f, log := s.log ++ [.start f],
    out := { s.out with emStart := true, emTrain := some (toSignal s.cfg f) } }

/-- `START(f)` (R156). It reads the configuration, which `INIT` must have written (R233). -/
def startEmitter (f : Frame) (s : State) : Atomic :=
  if s.emBusy then .error .raised
  else if s.initialised then .ok (s.started f)
  else .error (.forbidden .configurationUnwritten)

/-- `ENQ(f)` once enabled (R153): idle, the frame becomes the sole entry and is started; active, it is appended. -/
def enqueue (f : Frame) (s : State) : Atomic :=
  if s.active then
    match s.queue with
    | [] => .error .raised
    | _ :: _ => .ok ({ s with queue := pushBack s.queue f }.record (.enq f)).acknowledge
  else
    match s.queue with
    | _ :: _ => .error .raised
    | [] =>
      match startEmitter f ({ s with queue := [f], active := true }.record (.enq f)) with
      | .ok t => .ok t.acknowledge
      | .error e => .error e

/-- `ABORT` once enabled (R160): the backlog is dropped, the front entry stays. -/
def abortBacklog (s : State) : Atomic :=
  if s.active then
    match s.queue with
    | [] => .error .raised
    | front :: rest => .ok ({ s with queue := [front] }.record (.abort rest.length)).acknowledge
  else
    match s.queue with
    | _ :: _ => .error .raised
    | [] => .ok (s.record (.abort 0)).acknowledge

/-- `COMPLETE` with a notification pending (R159): the front entry is removed; the next one is started, or the queue
goes idle. -/
def completeFront (s : State) : Atomic :=
  if s.active then
    match s.queue with
    | [] => .error .raised
    | front :: [] => .ok ({ s with queue := [], donePending := false, active := false }.record (.complete front))
    | front :: second :: rest =>
      startEmitter second ({ s with queue := second :: rest, donePending := false }.record (.complete front))
  else .error .raised

/-- The writes of `EMIT_DONE` (R158). -/
def State.emissionDone (s : State) : State :=
  { s with emBusy := false, donePending := true, log := s.log ++ [.done s.emFrame] }

/-- The writes of `RESET` (R230, R40). The parameters, the requests still to come and the output ports are no state
of R40, and a step of `RESET` starts with the ports at rest (`State.serving`); the unspecified registers go to the model's
reset value (log entry 1). -/
def State.toReset (s : State) : State :=
  { s with
    queue := [], active := false, fault := .none, donePending := false, emBusy := false, emFrame := 0,
    initialised := false, cfg := Cfg.zero, log := [] }

/-- `SEND`, once its operands are a Command: encode and enqueue in one step (R155). -/
def sendCommand (c : Command) (s : State) : Result :=
  require (allowed s s.byProducer ++ running s ++ [(s.hasRoom, .queueFull)]) (settle s (enqueue (encodeFrame c) s))

end Sys2Proof.Machine
end

