-- ==== Sys2Proof/Machine/CodecFamily.lean ====
section
/-! DEFINITION. `ENCODE`, `DECODE`, `CHECKSUM`: pure functions whose results stand on output ports in the step that returns them (`spec/40_codec.md`).
They answer before `INIT` and while halted (R44, R197). -/

namespace Sys2Proof.Machine

/-- `ENCODE id, channel, action, intensity` to `enc_frame` (R104). -/
def execEncode (id : DeviceId) (channel action : Nibble) (intensity : Byte) (s : State) : Result :=
  require (allowed s s.byPureUser)
    (match Command.ofPorts id channel action intensity with
      | some c => .next { s with out := { s.out with encFrame := some (encodeFrame c) } }
      | none => .refused .notACommand)

/-- `DECODE bits` to `dec_status` and `dec_cmd` (R106, R193). With an error `dec_cmd` is a free value (R43; log
entry 3). -/
def execDecode (bits : BitSeq) (s : State) : Result :=
  require (allowed s s.byPureUser ++ [(decide (decodeMinBits ≤ bits.length), .shortSequence)])
    (match decodeBits bits with
      | .ok c => .next { s with out := { s.out with decStatus := some 0, decCmd := some c.word } }
      | .error e =>
        .next { s with
          out := { s.out with decStatus := some e.code, decCmd := some (Config.freeDecCmd s.freeCount) } })

/-- `CHECKSUM b0, b1, b2, b3` (R100). -/
def execChecksum (b0 b1 b2 b3 : Byte) (s : State) : Result :=
  require (allowed s s.byPureUser) (.next { s with out := { s.out with sum := some (checksum b0 b1 b2 b3) } })

end Sys2Proof.Machine
end

