-- ==== Sys2Proof/Machine/HostFamily.lean ====
section
/-! DEFINITION. `RESET` and `INIT` (`spec/70_reset_and_hazards.md`). -/

namespace Sys2Proof.Machine

/-- `RESET`: from the halted state, or with nothing in flight and nothing queued (R230, R239, U6; log entry 7). -/
def execReset (s : State) : Result :=
  require (allowed s (decide (s.agent = .host)) ++ [(!s.healthy || !s.workPending, .workPending)]) (.next s.toReset)

/-- `INIT`: loads the configuration once, and only a well-formed one (R231, R35). -/
def execInit (s : State) : Result :=
  require
    (allowed s (decide (s.agent = .host)) ++
      [(s.healthy, .halted), (!s.initialised, .alreadyInitialised), (!s.workPending, .workPending),
        ((loadedCfg s.par).wellFormed s.par.durW, .illFormedConfiguration)])
    (.next { s with cfg := loadedCfg s.par, initialised := true })

end Sys2Proof.Machine
end

