-- ==== Sys2Proof/Machine/PulseFamily.lean ====
section
/-! DEFINITION. `TICKS` and `TOSIGNAL` (`spec/41_pulsemap.md`). -/

namespace Sys2Proof.Machine

/-- `TICKS us` at the emitter's tick rate, only from inside `INIT` (R133, R82, R205). -/
def execTicks (us : Nat) (s : State) : Result :=
  require (allowed s (decide (s.agent = .inside)))
    (.next { s with out := { s.out with tickCount := some (ticks s.par.tickHz us) } })

/-- `TOSIGNAL frame` to `map_train`; it has a step only after `INIT` (R136, R44), and answers while halted (R197). -/
def execToSignal (frame : Frame) (s : State) : Result :=
  require (allowed s s.byPureUser ++ [(s.initialised, .notInitialised)])
    (.next { s with out := { s.out with mapTrain := some (toSignal s.cfg frame) } })

end Sys2Proof.Machine
end

