-- ==== Sys2Proof/Machine/QueueFamily.lean ====
section
/-! DEFINITION. The operations of the TransmitQueue and the emitter (`spec/42_queue.md`). -/

namespace Sys2Proof.Machine

/-- `NOP`: no request; nothing is written (R162). Like every operation of R82 but `RESET` and the pure functions it has no
step in the halted state (R197). -/
def execNop (s : State) : Result := require (allowed s s.byProducer ++ [(s.healthy, .halted)]) (.next s)

/-- `SEND id, channel, action, intensity` (R155). -/
def execSend (id : DeviceId) (channel action : Nibble) (intensity : Byte) (s : State) : Result :=
  match Command.ofPorts id channel action intensity with
  | some c => sendCommand c s
  | none => .refused .notACommand

/-- `ENQ frame` (R153). -/
def execEnq (frame : Frame) (s : State) : Result :=
  require (allowed s s.byProducer ++ running s ++ [(s.hasRoom, .queueFull)]) (settle s (enqueue frame s))

/-- `ABORT` (R160). -/
def execAbort (s : State) : Result :=
  require (allowed s s.byProducer ++ [(s.par.hasAbort, .abortNotExposed)] ++ running s) (settle s (abortBacklog s))

/-- `COMPLETE`: with no notification pending it changes nothing (R159, R161). -/
def execComplete (s : State) : Result :=
  require (allowed s (decide (s.agent = .completion)) ++ running s)
    (if s.donePending then settle s (completeFront s) else .next s)

/-- `EMIT_DONE`: "enabled only if em_busy = true and fault = None" (R158). -/
def execEmitDone (s : State) : Result :=
  require (allowed s (decide (s.agent = .emitter)) ++ [(s.healthy, .halted), (s.emBusy, .emitterIdle)])
    (.next s.emissionDone)

/-- `START frame`, only from inside `ENQ`, `SEND` or `COMPLETE` (R156, R205); not enabled while halted (R197). -/
def execStart (frame : Frame) (s : State) : Result :=
  require (allowed s (decide (s.agent = .inside)) ++ [(s.healthy, .halted)]) (settle s (startEmitter frame s))

end Sys2Proof.Machine
end

