-- ==== Sys2Proof/Machine/WireFamily.lean ====
section
/-! DEFINITION. The four wire actions (`spec/40_codec.md` section 4). As a program line each is a `SEND` of its frame
(R86, R108 to R111; log entry 4). -/

namespace Sys2Proof.Machine

/-- `SHOCK id, channel, intensity` (R108). -/
def execShock (id : DeviceId) (channel : Channel) (intensity : Byte) (s : State) : Result :=
  sendCommand { id := id, channel := channel, action := .shock, intensity := intensity } s

/-- `VIBRATE id, channel, intensity` (R109). -/
def execVibrate (id : DeviceId) (channel : Channel) (intensity : Byte) (s : State) : Result :=
  sendCommand { id := id, channel := channel, action := .vibrate, intensity := intensity } s

/-- `BEEP id, channel, intensity` (R110). -/
def execBeep (id : DeviceId) (channel : Channel) (intensity : Byte) (s : State) : Result :=
  sendCommand { id := id, channel := channel, action := .beep, intensity := intensity } s

/-- `LIGHT id, channel, intensity` (R111). -/
def execLight (id : DeviceId) (channel : Channel) (intensity : Byte) (s : State) : Result :=
  sendCommand { id := id, channel := channel, action := .light, intensity := intensity } s

end Sys2Proof.Machine
end

