-- ==== Sys2Proof/Machine/Dispatch.lean ====
section
/-! DEFINITION. One arm per constructor of `Instr`, in the order of `spec/opcode_table.json`. -/

namespace Sys2Proof.Machine

def exec (i : Instr) (s : State) : Host.Outcome State Fault Refusal :=
  match i with
  | .shock id channel intensity => Sys2Proof.Machine.execShock id channel intensity s
  | .vibrate id channel intensity => Sys2Proof.Machine.execVibrate id channel intensity s
  | .beep id channel intensity => Sys2Proof.Machine.execBeep id channel intensity s
  | .light id channel intensity => Sys2Proof.Machine.execLight id channel intensity s
  | .nop => Sys2Proof.Machine.execNop s
  | .send id channel action intensity => Sys2Proof.Machine.execSend id channel action intensity s
  | .enq frame => Sys2Proof.Machine.execEnq frame s
  | .abort => Sys2Proof.Machine.execAbort s
  | .complete => Sys2Proof.Machine.execComplete s
  | .emitDone => Sys2Proof.Machine.execEmitDone s
  | .start frame => Sys2Proof.Machine.execStart frame s
  | .reset => Sys2Proof.Machine.execReset s
  | .encode id channel action intensity => Sys2Proof.Machine.execEncode id channel action intensity s
  | .decode bits => Sys2Proof.Machine.execDecode bits s
  | .toSignal frame => Sys2Proof.Machine.execToSignal frame s
  | .checksum b0 b1 b2 b3 => Sys2Proof.Machine.execChecksum b0 b1 b2 b3 s
  | .ticks us => Sys2Proof.Machine.execTicks us s
  | .init => Sys2Proof.Machine.execInit s

end Sys2Proof.Machine
end

