-- ==== Sys2Proof/Machine/Arbiter.lean ====
section
/-! DEFINITION. What stands in the place of instruction fetch (R27, R56): the requests at the ports, and the arbiter that
serves them one at a time. -/

namespace Sys2Proof.Machine

/-- The requests that stand at the ports now, and those that come later: the first group that is not empty. -/
def presented : List (List Request) → Option (Request × List Request × List (List Request))
  | [] => none
  | [] :: later => presented later
  | (r :: rs) :: later => some (r, rs, later)

/-- The requests still to come once one of a group has been taken; a group with nothing left is over. -/
def waiting (left : List Request) (later : List (List Request)) : List (List Request) :=
  match left with
  | [] => later
  | _ :: _ => left :: later

/-- The pseudo-operation `REPEAT N`: the same request `N` times in a row (R86). -/
def repeated (n : Nat) (r : Request) : List (List Request) := List.replicate n [r]

/-- The pseudo-operation `DONE`: `EMIT_DONE`, then `COMPLETE`, two steps (R86). -/
def doneLines : List (List Request) :=
  [[{ agent := .emitter, word := encode .emitDone }], [{ agent := .completion, word := encode .complete }]]

/-- The state in which a request of `agent` is served: it is off the ports, what the step before put on the output ports
is over (R31, R43), and the counter of the free values has moved on. -/
def State.serving (s : State) (agent : Agent) (program : List (List Request)) : State :=
  { s with
    agent := agent.context, program := program, freeCount := s.freeCount + 1, out := Outputs.rest }

/-- The state of a step in which no agent requests anything: the output ports are at rest and nothing else changes
(R162). -/
def State.idling (s : State) : State :=
  { s with program := [], out := Outputs.rest }

/-- Serves one request: the operation its word presents, in the state `serving` gives (R10, R55). -/
def serve (s : State) (r : Request) (program : List (List Request)) : Result :=
  match decode r.word with
  | .ok i => exec i (s.serving r.agent program)
  | .error why => .refused (.noOperation why)

/-- The request has a step now. -/
def enabledNow (s : State) (r : Request) : Bool :=
  match serve s r [] with
  | .next _ => true
  | .fault _ => false
  | .refused _ => false

/-- The request at position `k` is the first of its agent in the group: an agent's operations are served in the order in
which it issued them (R57). -/
def firstOfAgent (group : List Request) (k : Nat) : Bool :=
  (group.take k).all fun r => decide (some r.agent ≠ group[k]?.map Request.agent)

/-- The position holds a request that has a step now. -/
def enabledAt (s : State) (group : List Request) (k : Nat) : Bool := (group[k]?.map (enabledNow s)).getD false

/-- The positions the arbiter may pick from: among the first requests of the agents, the enabled ones, or all if none is
enabled. -/
def candidates (s : State) (group : List Request) : List Nat :=
  let firsts := (List.range group.length).filter (firstOfAgent group)
  let enabled := firsts.filter (enabledAt s group)
  if enabled.isEmpty then firsts else enabled

/-- The request served next and those left: a request that stands alone is served; among several the order is open
(R56, R201), so a free value picks among the candidates (log entry 2). -/
def arbitrate (s : State) (r : Request) (rs : List Request) : Request × List Request :=
  match rs with
  | [] => (r, [])
  | _ :: _ =>
    let group := r :: rs
    let among := candidates s group
    let k := among.getD (Config.arbiterChoice s.freeCount % among.length) 0
    (group.getD k r, group.eraseIdx k)

end Sys2Proof.Machine
end

