-- ==== Sys2Proof/Machine/Step.lean ====
section
/-! DEFINITION. One step of the block: the arbiter serves one request (R10, R55, R56). -/

namespace Sys2Proof.Machine

/-- One step. With no request at any port nothing happens (R162). -/
def step (s : State) : Host.Outcome State Fault Refusal :=
  match presented s.program with
  | none => .next s.idling
  | some (r, rs, later) => serve s (arbitrate s r rs).1 (waiting (arbitrate s r rs).2 later)

/-- `s` with the operation of an opcode-table word requested next and alone, by the agent that performs it. -/
def State.withFetchWord (s : State) (nbits w : Nat) : State :=
  { s with program := [tableRequest nbits w] :: s.program }

end Sys2Proof.Machine
end

