-- ==== Sys2Proof/Safety.lean ====
section
/-! DEFINITION. The terms in which claims about the block are made: the histories read off the event log, the invariant
of R37 with what it needs to be inductive, the end of a run (R11), runs with their fairness and the draining of the
queue (R166). -/

namespace Sys2Proof.Machine

/-- The frames of the `EvComplete` events, in order. -/
def completedFrames (log : List Event) : List Frame :=
  log.filterMap fun e =>
    match e with
    | .complete f => some f
    | _ => none

/-- The frames of the `EvDone` events, in order. -/
def emittedFrames (log : List Event) : List Frame :=
  log.filterMap fun e =>
    match e with
    | .done f => some f
    | _ => none

/-- One event's part in `survivingFrames`: `EvEnq` adds a frame at the back, `EvAbort(n)` strikes out the last `n`. -/
def surviveEvent (kept : List Frame) (e : Event) : List Frame :=
  match e with
  | .enq f => kept ++ [f]
  | .abort n => kept.take (kept.length - n)
  | _ => kept

/-- The frames of the `EvEnq` events in order with those removed by `EvAbort` struck out (R37 I6, R164). -/
def survivingFrames (log : List Event) : List Frame := log.foldl surviveEvent []

/-- A producer's request is being served (R9, R205). -/
def State.servesProducer (s : State) : Prop := ∃ p, s.agent = .producer p ∧ p < s.par.nprod

/-- An agent that R205 lists for the pure functions is being served, or the block itself. -/
def State.servesPureUser (s : State) : Prop :=
  s.agent ≠ .emitter ∧ ∀ p, s.agent = .producer p → p < s.par.nprod

/-- `fault = None` and `initialised = true`: the enabling condition of the queue operations (R44, R197). -/
def State.operational (s : State) : Prop := s.fault = .none ∧ s.initialised = true

/-- The caller's duty of R240: no enqueue into a full queue. -/
def State.roomFor (s : State) : Prop := ∀ d, s.par.qdepth = some d → s.queue.length < d

/-- Nothing queued, in flight or pending (R11 but for the fault and the producers). -/
def State.quiet (s : State) : Prop :=
  s.queue = [] ∧ s.active = false ∧ s.emBusy = false ∧ s.donePending = false

/-- A producer still has an operation to perform: it presents a word other than `NOP` (R11, R162). -/
def producerWork (r : Request) : Bool :=
  match r.agent with
  | .producer _ => decide (decode r.word ≠ .ok .nop)
  | _ => false

/-- The quiescent state (R11), with what is still requested. -/
def State.quiescentWith (s : State) (requests : List Request) : Prop :=
  s.fault = .none ∧ s.quiet ∧ ∀ r ∈ requests, producerWork r = false

/-- The quiescent state, the end of a run (R11). -/
def State.quiescent (s : State) : Prop := s.quiescentWith s.program.flatten

/-- The invariant of R37 (`i1` to `i4`, `i7`), over the event history (`history…`, of which I5, I6 and R164 are
consequences), with the frozen configuration (R34, R44). -/
structure State.Inv (s : State) : Prop where
  healthy : s.fault = .none
  i1 : s.active = true ↔ s.queue ≠ []
  i2 : s.active = true →
    (s.emBusy = true ∧ s.queue.head? = some s.emFrame ∧ s.donePending = false) ∨
    (s.emBusy = false ∧ s.donePending = true)
  i3 : s.active = false → s.emBusy = false ∧ s.donePending = false
  i4 : s.donePending = true → s.emBusy = false
  i7 : ∀ d, s.par.qdepth = some d → s.queue.length ≤ d
  historyKept : survivingFrames s.log = completedFrames s.log ++ s.queue
  historyStarted : startedFrames s.log = completedFrames s.log ++ s.queue.take 1
  historyEmitted : emittedFrames s.log = completedFrames s.log ++ (if s.donePending then s.queue.take 1 else [])
  beforeInit : s.initialised = false → s.queue = []
  configured : s.initialised = true → s.cfg = loadedCfg s.par ∧ s.cfg.wellFormed s.par.durW = true

/-- The parameters, the agent served, the requests to come and the free-value counter are as they were. -/
def State.sameSurroundings (s t : State) : Prop :=
  t.par = s.par ∧ t.agent = s.agent ∧ t.program = s.program ∧ t.freeCount = s.freeCount

/-- The ports that carry the results of the pure functions are as they were. -/
def State.samePureResults (s t : State) : Prop :=
  t.out.encFrame = s.out.encFrame ∧ t.out.decStatus = s.out.decStatus ∧ t.out.decCmd = s.out.decCmd ∧
  t.out.mapTrain = s.out.mapTrain ∧ t.out.sum = s.out.sum ∧ t.out.tickCount = s.out.tickCount

/-- Every piece of state of R40 is as it was. -/
def State.sameBlock (s t : State) : Prop :=
  t.queue = s.queue ∧ t.active = s.active ∧ t.fault = s.fault ∧ t.donePending = s.donePending ∧
  t.emBusy = s.emBusy ∧ t.emFrame = s.emFrame ∧ t.initialised = s.initialised ∧ t.cfg = s.cfg ∧ t.log = s.log

/-- The table of R205: which agents may perform which operation. A wire action is a `SEND` (R86); `START` and `TICKS`
happen only inside another operation (R82). -/
def listedFor : Instr → Context → Prop
  | .shock _ _ _, a => ∃ p, a = .producer p
  | .vibrate _ _ _, a => ∃ p, a = .producer p
  | .beep _ _ _, a => ∃ p, a = .producer p
  | .light _ _ _, a => ∃ p, a = .producer p
  | .nop, a => ∃ p, a = .producer p
  | .send _ _ _ _, a => ∃ p, a = .producer p
  | .enq _, a => ∃ p, a = .producer p
  | .abort, a => ∃ p, a = .producer p
  | .complete, a => a = .completion
  | .emitDone, a => a = .emitter
  | .start _, a => a = .inside
  | .reset, a => a = .host
  | .init, a => a = .host
  | .encode _ _ _ _, a => a ≠ .emitter
  | .decode _, a => a ≠ .emitter
  | .toSignal _, a => a ≠ .emitter
  | .checksum _ _ _ _, a => a ≠ .emitter
  | .ticks _, a => a = .inside

/-- The operations that read or write the queue on a producer's behalf (R205, first row, but for `NOP`). -/
def producerOp : Instr → Bool
  | .shock _ _ _ => true
  | .vibrate _ _ _ => true
  | .beep _ _ _ => true
  | .light _ _ _ => true
  | .send _ _ _ _ => true
  | .enq _ => true
  | .abort => true
  | .nop => false
  | .complete => false
  | .emitDone => false
  | .start _ => false
  | .reset => false
  | .init => false
  | .encode _ _ _ _ => false
  | .decode _ => false
  | .toSignal _ => false
  | .checksum _ _ _ _ => false
  | .ticks _ => false

/-- The pure functions (R8, R82). -/
def pureOp : Instr → Bool
  | .encode _ _ _ _ => true
  | .decode _ => true
  | .toSignal _ => true
  | .checksum _ _ _ _ => true
  | .ticks _ => true
  | .shock _ _ _ => false
  | .vibrate _ _ _ => false
  | .beep _ _ _ => false
  | .light _ _ _ => false
  | .nop => false
  | .send _ _ _ _ => false
  | .enq _ => false
  | .abort => false
  | .complete => false
  | .emitDone => false
  | .start _ => false
  | .reset => false
  | .init => false

/-- The frame a producer's enqueuing operation enqueues: the operand of `ENQ`, the encoded Command of `SEND` and of the
wire actions; `none` for every other operation and for operands that are no Command. -/
def enqueuedFrame : Instr → Option Frame
  | .shock id channel intensity => some (wireFrame id channel .shock intensity)
  | .vibrate id channel intensity => some (wireFrame id channel .vibrate intensity)
  | .beep id channel intensity => some (wireFrame id channel .beep intensity)
  | .light id channel intensity => some (wireFrame id channel .light intensity)
  | .send id channel action intensity => (Command.ofPorts id channel action intensity).map encodeFrame
  | .enq frame => some frame
  | .nop => none
  | .abort => none
  | .complete => none
  | .emitDone => none
  | .start _ => none
  | .reset => none
  | .init => none
  | .encode _ _ _ _ => none
  | .decode _ => none
  | .toSignal _ => none
  | .checksum _ _ _ _ => none
  | .ticks _ => none

/-- Goes on from a next state. -/
def andThen (r : Result) (k : State → Result) : Result :=
  match r with
  | .next t => k t
  | .fault e => .fault e
  | .refused e => .refused e

/-- `s` with an operation performed in the context `a`. -/
def State.by (s : State) (a : Context) : State := { s with agent := a }

/-- One round of the two agents of R166: the emitter finishes a train if one is being emitted, then the completion
context handles the notification. -/
def drainRound (s : State) : Result :=
  andThen (if s.emBusy then exec .emitDone (s.by .emitter) else .next s) fun t => exec .complete (t.by .completion)

/-- `n` rounds. -/
def drain : Nat → State → Result
  | 0, s => .next s
  | n + 1, s => andThen (drainRound s) (drain n)

/-! ### Runs and their fairness (R166) -/

/-- A run: at each instant the state, the requests that stand at the ports, and the position of the one that is served,
`none` where no agent steps. -/
structure Run where
  state : Nat → State
  ports : Nat → List Request
  served : Nat → Option Nat

/-- The requests that are left once the instant is over. -/
def leftOver (ports : List Request) : Option Nat → List Request
  | none => ports
  | some k => ports.eraseIdx k

/-- Each instant serves one request, the first of its agent, or none (R10, R57); the others keep standing at the ports
and new ones come behind them, whichever the agents make. The list `State.program` plays no part: the requests are
those of `ports` (log entry 13). -/
structure Run.Legal (ρ : Run) : Prop where
  wait : ∀ n, leftOver (ρ.ports n) (ρ.served n) <+: ρ.ports (n + 1)
  idle : ∀ n, ρ.served n = none → ∃ p, ρ.state (n + 1) = { (ρ.state n).idling with program := p }
  serve : ∀ n k, ρ.served n = some k →
    ∃ r p, (ρ.ports n)[k]? = some r ∧ firstOfAgent (ρ.ports n) k = true ∧
      serve (ρ.state n) r p = .next (ρ.state (n + 1))

/-- The agent that steps at instant `n`, and its operation. -/
def Run.performed (ρ : Run) (n : Nat) : Option (Agent × Instr) :=
  match ρ.served n with
  | none => none
  | some k =>
    match (ρ.ports n)[k]? with
    | none => none
    | some r =>
      match decode r.word with
      | .ok i => some (r.agent, i)
      | .error _ => none

/-- How many `COMPLETE`s before instant `n` found a notification. -/
def Run.handled (ρ : Run) : Nat → Nat
  | 0 => 0
  | n + 1 =>
    ρ.handled n +
      if ρ.performed n = some (.completion, .complete) ∧ (ρ.state n).donePending = true then 1 else 0

/-- Weak fairness of the emitter: whenever `EMIT_DONE` stays enabled it eventually happens (R166 (a)). -/
def Run.fairEmitter (ρ : Run) : Prop :=
  ∀ n, (∀ m, n ≤ m → (ρ.state m).emBusy = true ∧ (ρ.state m).fault = .none) →
    ∃ m, n ≤ m ∧ ρ.performed m = some (.emitter, .emitDone)

/-- Weak fairness of the completion context: whenever a notification stays pending and `COMPLETE` enabled, it eventually
happens (R166 (b)). -/
def Run.fairCompletion (ρ : Run) : Prop :=
  ∀ n, (∀ m, n ≤ m → (ρ.state m).donePending = true ∧ (ρ.state m).operational) →
    ∃ m, n ≤ m ∧ ρ.performed m = some (.completion, .complete)

/-- Weak fairness of the arbiter: a request that stays at the ports, the first of its agent and enabled, is eventually
served (R166 (c)). -/
def Run.fairArbiter (ρ : Run) : Prop :=
  ∀ n r,
    (∀ m, n ≤ m → ∃ k, (ρ.ports m)[k]? = some r ∧ firstOfAgent (ρ.ports m) k = true ∧
      enabledNow (ρ.state m) r = true) →
    ∃ m k, n ≤ m ∧ ρ.served m = some k ∧ (ρ.ports m)[k]? = some r

/-- The fairness assumptions (a) to (c) of R166. -/
structure Run.Fair (ρ : Run) : Prop where
  emitter : ρ.fairEmitter
  completion : ρ.fairCompletion
  arbiter : ρ.fairArbiter

/-- The producers issue no operation during the run (R166). -/
def Run.producersStopped (ρ : Run) : Prop := ∀ n, ∀ r ∈ ρ.ports n, producerWork r = false

end Sys2Proof.Machine
end

