-- ==== Sys2Proof/Certificates/Slice0/Obligations.lean ====
section
/-! DEFINITION. The statements for the provers. Each docstring names the rule of spec/ it rests on and, where a clause is
the model's choice and not the spec's, the log entry. -/

section

open Sys2Proof Sys2Proof.Machine

/-! ### PacketCodec (`spec/40_codec.md`, `spec/30_encoding.md`, `spec/60_exceptions.md` section 1) -/

/-- R100. `CHECKSUM` completes for every operand, with the sum of the four bytes as unsigned integers, modulo 256,
whatever the order of the operands; nothing else changes. Where the result stands is the model's choice (log entry 6). -/
def Obligations.ChecksumIsByteSumModulo256 : Prop :=
  (∀ (s : State) (b0 b1 b2 b3 : Byte), s.servesPureUser →
    exec (.checksum b0 b1 b2 b3) s = .next { s with out := { s.out with sum := some (checksum b0 b1 b2 b3) } }) ∧
  ∀ b0 b1 b2 b3 : Byte,
    (checksum b0 b1 b2 b3).toNat = (b0.toNat + b1.toNat + b2.toNat + b3.toNat) % 256 ∧
    checksum b1 b0 b2 b3 = checksum b0 b1 b2 b3 ∧ checksum b0 b2 b1 b3 = checksum b0 b1 b2 b3 ∧
    checksum b0 b1 b3 b2 = checksum b0 b1 b2 b3

/-- R101. Adding in an 8-bit register that wraps at each addition gives the same result as adding exactly and reducing
once; the exact sum is at most 1020 (reached); for a Command the third byte is at most `0x24` and the sum at most 801
(reached). -/
def Obligations.ChecksumWrapsWithoutSaturating : Prop :=
  (∀ b0 b1 b2 b3 : Byte, checksum b0 b1 b2 b3 = b0 + b1 + b2 + b3) ∧
  (∀ b0 b1 b2 b3 : Byte, b0.toNat + b1.toNat + b2.toNat + b3.toNat ≤ 1020) ∧
  (∃ b0 b1 b2 b3 : Byte, b0.toNat + b1.toNat + b2.toNat + b3.toNat = 1020) ∧
  (∀ c : Command,
    (payloadByte c.word 2).toNat ≤ 0x24 ∧
    (payloadByte c.word 0).toNat + (payloadByte c.word 1).toNat + (payloadByte c.word 2).toNat +
      (payloadByte c.word 3).toNat ≤ 801) ∧
  (∃ c : Command,
    (payloadByte c.word 0).toNat + (payloadByte c.word 1).toNat + (payloadByte c.word 2).toNat +
      (payloadByte c.word 3).toNat = 801)

/-- R79. The frame of a Command as one number, its terminator, and the 40-bit number above it. -/
def Obligations.FrameAsOneNumber : Prop :=
  ∀ c : Command,
    (encodeFrame c).toNat =
      c.id.toNat * 2 ^ 27 + c.channel.nibble.toNat * 2 ^ 23 + c.action.nibble.toNat * 2 ^ 19 +
        c.intensity.toNat * 2 ^ 11 + (wordChecksum c.word).toNat * 2 ^ 3 ∧
    (encodeFrame c).extractLsb' 0 3 = 0 ∧
    (encodeFrame c).extractLsb' 3 40 =
      c.id ++ c.channel.nibble ++ c.action.nibble ++ c.intensity ++ wordChecksum c.word

/-- R70, R51, R52, R78. Each field of an encoded frame stands at its positions, most significant bit first, and the
checksum field is the checksum of the payload's four bytes as they stand in the frame. -/
def Obligations.FrameFieldsStandAtTheirPositions : Prop :=
  ∀ c : Command,
    (frameBits (encodeFrame c)).length = 43 ∧
    slice (frameBits (encodeFrame c)) 0 16 = be 16 c.id.toNat ∧
    slice (frameBits (encodeFrame c)) 16 4 = be 4 c.channel.nibble.toNat ∧
    slice (frameBits (encodeFrame c)) 20 4 = be 4 c.action.nibble.toNat ∧
    slice (frameBits (encodeFrame c)) 24 8 = be 8 c.intensity.toNat ∧
    slice (frameBits (encodeFrame c)) 40 3 = [false, false, false] ∧
    field (frameBits (encodeFrame c)) 32 8 =
      checksum (field (frameBits (encodeFrame c)) 0 8) (field (frameBits (encodeFrame c)) 8 8)
        (field (frameBits (encodeFrame c)) 16 8) (field (frameBits (encodeFrame c)) 24 8)

/-- R107 (a), (b), (d) over every Command and every sequence of 40 or more bits: `DECODE` undoes `ENCODE`, on the 43 bits
or their first 40; re-encoding restores the first 40 bits and appends three zeros; and `DECODE` succeeds exactly on the
valid patterns of R76, which it reads as the Command they spell. -/
def Obligations.DecodeUndoesEncode : Prop :=
  (∀ c : Command,
    decodeFrame (encodeFrame c) = .ok c ∧ decodeBits ((frameBits (encodeFrame c)).take 40) = .ok c) ∧
  (∀ (s : BitSeq) (c : Command), 40 ≤ s.length → decodeBits s = .ok c →
    (frameBits (encodeFrame c)).take 40 = s.take 40 ∧
    (frameBits (encodeFrame c)).drop 40 = [false, false, false]) ∧
  (∀ s : BitSeq, 40 ≤ s.length →
    ((∃ c, decodeBits s = .ok c) ↔
      (field s 16 4).toNat ≤ 2 ∧ 1 ≤ (field s 20 4).toNat ∧ (field s 20 4).toNat ≤ 4 ∧
      checksum (field s 0 8) (field s 8 8) (field s 16 8) (field s 24 8) = field s 32 8))

/-- R191, R192, R194, R200, R31. Which error `DECODE` returns: the first that applies in the order channel, action,
checksum. It stands on `dec_status` in the step of that `DECODE` and is held nowhere after: no other operation puts
anything on the port, and after a step that performed no `DECODE` the port carries no status. That the step of the
`DECODE` is where the call returns is the model's form (log entry 10). -/
def Obligations.DecodeReportsTheFirstDefect : Prop :=
  (∀ s : BitSeq,
    (decodeBits s = .error .invalidChannel ↔ 3 ≤ (field s 16 4).toNat) ∧
    (decodeBits s = .error .invalidAction ↔
      (field s 16 4).toNat ≤ 2 ∧ ((field s 20 4).toNat = 0 ∨ 5 ≤ (field s 20 4).toNat)) ∧
    (decodeBits s = .error .checksumMismatch ↔
      (field s 16 4).toNat ≤ 2 ∧ 1 ≤ (field s 20 4).toNat ∧ (field s 20 4).toNat ≤ 4 ∧
      checksum (field s 0 8) (field s 8 8) (field s 16 8) (field s 24 8) ≠ field s 32 8)) ∧
  (∀ (i : Instr) (s t : State), exec i s = .next t → t.out.decStatus ≠ s.out.decStatus → ∃ bits, i = .decode bits) ∧
  (∀ s t : State, step s = .next t →
    t.out.decStatus = none ∨
    ∃ (bits : BitSeq) (a : Agent) (p : List (List Request)), exec (.decode bits) (s.serving a p) = .next t)

/-- R81, U13. Only the first 40 bits matter to `DECODE`: a 43-bit frame and its first 40 bits decode alike. -/
def Obligations.DecodeReadsOnlyFirstFortyBits : Prop :=
  (∀ s u : BitSeq, 40 ≤ s.length → decodeBits (s ++ u) = decodeBits s) ∧
  (∀ w : Frame, decodeFrame w = decodeBits ((frameBits w).take 40))

/-- R102 and C2. Flipping one of the first 40 bits of a valid frame always makes `DECODE` fail: `ChecksumMismatch` for a
bit of id, intensity or checksum, and for a nibble bit whose flip leaves both nibbles valid; the nibble's own error
otherwise. A flip of a terminator bit is never detected, nor is the swap of the two id bytes. -/
def Obligations.SingleBitFlipIsDetected : Prop :=
  ∀ (c : Command) (i : Nat),
    let s := frameBits (encodeFrame c)
    let flipped := s.set i (!(frameBit (encodeFrame c) i))
    (i < 40 → ∃ e, decodeBits flipped = .error e) ∧
    (i < 16 ∨ (24 ≤ i ∧ i < 40) → decodeBits flipped = .error .checksumMismatch) ∧
    (16 ≤ i ∧ i < 20 →
      decodeBits flipped =
        if (field flipped 16 4).toNat ≤ 2 then .error .checksumMismatch else .error .invalidChannel) ∧
    (20 ≤ i ∧ i < 24 →
      decodeBits flipped =
        if 1 ≤ (field flipped 20 4).toNat ∧ (field flipped 20 4).toNat ≤ 4 then .error .checksumMismatch
        else .error .invalidAction) ∧
    (40 ≤ i ∧ i < 43 → decodeBits flipped = .ok c) ∧
    decodeBits (slice s 8 8 ++ slice s 0 8 ++ s.drop 16) =
      .ok { c with id := c.id.extractLsb' 0 8 ++ c.id.extractLsb' 8 8 }

/-- R105 (c). Different Commands give frames that differ somewhere in `f(0..31)`. -/
def Obligations.EncodeIsInjectiveOnThePayload : Prop :=
  ∀ c d : Command, (frameBits (encodeFrame c)).take 32 = (frameBits (encodeFrame d)).take 32 → c = d

/-- R104. `ENCODE` of a Command completes, before `INIT` and while halted too (R44, R197): the frame stands on
`enc_frame` and nothing else changes. Operands that are no Command have no step (U1). -/
def Obligations.EncodeCompletes : Prop :=
  (∀ (s : State) (c : Command), s.servesPureUser →
    exec (.encode c.id c.channel.nibble c.action.nibble c.intensity) s =
      .next { s with out := { s.out with encFrame := some (encodeFrame c) } }) ∧
  (∀ (s : State) (id : DeviceId) (channel action : Nibble) (intensity : Byte), s.servesPureUser →
    (2 < channel.toNat ∨ action.toNat = 0 ∨ 4 < action.toNat) →
    exec (.encode id channel action intensity) s = .refused .notACommand)

/-- R106, R193. `DECODE` of 40 or more bits completes and touches no state: with a Command, status `Ok` and its word;
with an error, the error's code of R190, and then `dec_cmd` holds a value of which nothing is said (R43: meaningful only
when `dec_status = 0`). Fewer than 40 bits have no step (U2). -/
def Obligations.DecodeCompletes : Prop :=
  (∀ (s : State) (bits : BitSeq) (c : Command), s.servesPureUser → 40 ≤ bits.length → decodeBits bits = .ok c →
    exec (.decode bits) s = .next { s with out := { s.out with decStatus := some 0, decCmd := some c.word } }) ∧
  (∀ (s : State) (bits : BitSeq) (e : DecodeError), s.servesPureUser → 40 ≤ bits.length →
    decodeBits bits = .error e →
    ∃ junk : CmdWord,
      exec (.decode bits) s =
        .next { s with
          out := { s.out with
            decStatus := some (match e with
              | .invalidChannel => 1
              | .invalidAction => 2
              | .checksumMismatch => 3),
            decCmd := some junk } }) ∧
  (∀ (s : State) (bits : BitSeq), s.servesPureUser → bits.length < 40 →
    exec (.decode bits) s = .refused .shortSequence)

/-- R8, R193, R197. A pure function changes nothing but the ports that carry results: no state of R40, no strobe, no
surroundings. -/
def Obligations.PureFunctionsTouchNoState : Prop :=
  ∀ (i : Instr) (s t : State), pureOp i = true → exec i s = .next t →
    s.sameBlock t ∧ s.sameSurroundings t ∧
    t.out.pAck = s.out.pAck ∧ t.out.emStart = s.out.emStart ∧ t.out.emTrain = s.out.emTrain

/-! ### The wire actions and the producers' operations (`spec/42_queue.md` section 3) -/

/-- R86, R108 to R111. As a program line each wire action is the `SEND` of its Command, in every state; that this line is
what an executed wire action is, is the model's reading (log entry 4). -/
def Obligations.WireActionsAreSends : Prop :=
  ∀ (s : State) (id : DeviceId) (channel : Channel) (n : Byte),
    exec (.shock id channel n) s = exec (.send id channel.nibble 1 n) s ∧
    exec (.vibrate id channel n) s = exec (.send id channel.nibble 2 n) s ∧
    exec (.beep id channel n) s = exec (.send id channel.nibble 3 n) s ∧
    exec (.light id channel n) s = exec (.send id channel.nibble 4 n) s

/-- R155. `SEND` of a Command is `ENQ` of its encoding, in one step and in every state; operands that are no Command have
no step (U1). -/
def Obligations.SendIsEncodeThenEnq : Prop :=
  (∀ (s : State) (c : Command),
    exec (.send c.id c.channel.nibble c.action.nibble c.intensity) s = exec (.enq (encodeFrame c)) s) ∧
  (∀ (s : State) (id : DeviceId) (channel action : Nibble) (n : Byte),
    (2 < channel.toNat ∨ action.toNat = 0 ∨ 4 < action.toNat) →
    exec (.send id channel action n) s = .refused .notACommand)

/-- R153, R154, R156: `ENQ`. Into an idle queue, the frame becomes the sole entry and is started in the same step; while
a transmission is active it goes to the back, whatever the emitter and the latch hold, and the hardware is not touched. -/
def Obligations.EnqStartsOrAppends : Prop :=
  (∀ (s : State) (f : Frame), s.servesProducer → s.operational → s.roomFor →
    s.active = false → s.queue = [] → s.emBusy = false →
    exec (.enq f) s =
      .next { s with
        queue := [f], active := true, emBusy := true, emFrame := f,
        log := s.log ++ [.enq f, .start f],
        out := { s.out with pAck := true, emStart := true, emTrain := some (toSignal s.cfg f) } }) ∧
  (∀ (s : State) (f : Frame), s.servesProducer → s.operational → s.roomFor →
    s.active = true → s.queue ≠ [] →
    exec (.enq f) s =
      .next { s with
        queue := s.queue ++ [f], log := s.log ++ [.enq f], out := { s.out with pAck := true } })

/-- R153, R155, R163, R108 to R111. Every enqueuing operation (`ENQ`, `SEND` of a Command, the four wire actions)
completes for a producer in an operational block with room, in every state that meets the invariant: its frame is at the
back of the queue, acknowledged and logged, and it is started exactly if the queue was empty. -/
def Obligations.EnqueuingOperationsComplete : Prop :=
  ∀ (i : Instr) (f : Frame) (s : State), enqueuedFrame i = some f →
    s.servesProducer → s.operational → s.roomFor → s.Inv →
    ∃ t, exec i s = .next t ∧ t.queue = s.queue ++ [f] ∧ t.active = true ∧ t.fault = .none ∧ t.out.pAck = true ∧
      t.donePending = s.donePending ∧ t.cfg = s.cfg ∧ t.initialised = true ∧
      (s.queue = [] → t.log = s.log ++ [.enq f, .start f] ∧ t.emBusy = true ∧ t.emFrame = f ∧
        t.out.emStart = true ∧ t.out.emTrain = some (toSignal s.cfg f)) ∧
      (s.queue ≠ [] → t.log = s.log ++ [.enq f] ∧ t.emBusy = s.emBusy ∧ t.emFrame = s.emFrame ∧
        t.out.emStart = s.out.emStart)

/-- R151, U3. With a finite `QDEPTH`, an enqueuing operation into a full queue has no step: nothing is dropped, nobody
is blocked. -/
def Obligations.FullQueueTakesNoFrame : Prop :=
  ∀ (i : Instr) (f : Frame) (s : State) (d : Nat), enqueuedFrame i = some f →
    s.servesProducer → s.operational → s.par.qdepth = some d → d ≤ s.queue.length →
    exec i s = .refused .queueFull

/-- R160, R154: `ABORT`. Active, the backlog is dropped and the front stays; idle, nothing is dropped. The emitter, the
latch and `active` keep their values. -/
def Obligations.AbortDropsOnlyTheBacklog : Prop :=
  (∀ (s : State) (front : Frame) (rest : List Frame), s.servesProducer → s.operational → s.par.hasAbort = true →
    s.active = true → s.queue = front :: rest →
    exec .abort s =
      .next { s with
        queue := [front], log := s.log ++ [.abort rest.length], out := { s.out with pAck := true } }) ∧
  (∀ s : State, s.servesProducer → s.operational → s.par.hasAbort = true → s.active = false → s.queue = [] →
    exec .abort s = .next { s with log := s.log ++ [.abort 0], out := { s.out with pAck := true } }) ∧
  (∀ s : State, s.servesProducer → s.par.hasAbort = false → exec .abort s = .refused .abortNotExposed)

/-- R54. `ABORT` is idempotent: a second one changes nothing but the history, which gains an `EvAbort(0)`. -/
def Obligations.AbortIsIdempotent : Prop :=
  ∀ s t : State, exec .abort s = .next t → t.fault = .none →
    exec .abort t = .next { t with log := t.log ++ [.abort 0] }

/-- R162, R197. `NOP` of a producer changes nothing while no fault is recorded, initialised or not (that `INIT` need not
come first is the model's reading, log entry 8); in the halted state it has no step. -/
def Obligations.NopChangesNothing : Prop :=
  (∀ s : State, s.servesProducer → s.fault = .none → exec .nop s = .next s) ∧
  (∀ s : State, s.servesProducer → s.fault ≠ .none → exec .nop s = .refused .halted)

/-- R163. A producer's enqueuing operation or `ABORT` never waits: in an operational block with room it has a step,
whatever the rest of the state holds. -/
def Obligations.ProducersNeverWait : Prop :=
  ∀ (i : Instr) (s : State), producerOp i = true → i.wellFormed = true →
    s.servesProducer → s.operational → s.roomFor → s.par.hasAbort = true → ∃ t, exec i s = .next t

/-- The frame of the producers' operations (R153, R155, R160): the latch, the configuration, the surroundings and the
results of the pure functions are unchanged; `fault` is unchanged or set. `ABORT` also leaves `active`, the emitter and
its train alone. -/
def Obligations.ProducerOperationsFrame : Prop :=
  ∀ (i : Instr) (s t : State), producerOp i = true → exec i s = .next t →
    t.donePending = s.donePending ∧ t.initialised = s.initialised ∧ t.cfg = s.cfg ∧
    s.sameSurroundings t ∧ s.samePureResults t ∧
    (t.fault = s.fault ∨ t.fault = .invariantViolation) ∧
    (i = .abort → t.active = s.active ∧ t.emBusy = s.emBusy ∧ t.emFrame = s.emFrame ∧ t.out.emTrain = s.out.emTrain)

/-! ### The emitter and the completion side (`spec/42_queue.md` sections 4 and 5) -/

/-- R156, R195, R233. `START` inside another operation completes when the emitter is free; over a busy emitter it raises
`InvariantViolation`; with the configuration unwritten it stops with the model's fault. The agent `inside` is the model's
(log entry 5). -/
def Obligations.StartHandsTheTrainToAFreeEmitter : Prop :=
  (∀ (s : State) (f : Frame), s.agent = .inside → s.operational → s.emBusy = false →
    exec (.start f) s =
      .next { s with
        emBusy := true, emFrame := f, log := s.log ++ [.start f],
        out := { s.out with emStart := true, emTrain := some (toSignal s.cfg f) } }) ∧
  (∀ (s : State) (f : Frame), s.agent = .inside → s.fault = .none → s.emBusy = true →
    exec (.start f) s = .next s.raiseInvariantViolation) ∧
  (∀ (s : State) (f : Frame), s.agent = .inside → s.fault = .none → s.emBusy = false → s.initialised = false →
    exec (.start f) s = .fault .configurationUnwritten)

/-- R158. `EMIT_DONE` completes while a train is being emitted and no fault is recorded; with no train, or with a fault
recorded, it has no step. -/
def Obligations.EmitDoneRaisesTheNotification : Prop :=
  (∀ s : State, s.agent = .emitter → s.fault = .none → s.emBusy = true →
    exec .emitDone s =
      .next { s with emBusy := false, donePending := true, log := s.log ++ [.done s.emFrame] }) ∧
  (∀ s : State, s.agent = .emitter → s.fault = .none → s.emBusy = false →
    exec .emitDone s = .refused .emitterIdle) ∧
  (∀ s : State, s.agent = .emitter → s.fault ≠ .none → exec .emitDone s = .refused .halted)

/-- R161. A `COMPLETE` performed when `done_pending = false` changes nothing and logs nothing. -/
def Obligations.CompleteWithoutNotificationChangesNothing : Prop :=
  ∀ s : State, s.agent = .completion → s.operational → s.donePending = false → exec .complete s = .next s

/-- R159, R154, R172: `COMPLETE` with a notification pending. Of the last entry, it lets the queue go idle; with entries
left, the front is removed and the next is started in the same step. -/
def Obligations.CompleteAdvancesTheQueue : Prop :=
  (∀ (s : State) (front : Frame), s.agent = .completion → s.operational → s.donePending = true →
    s.active = true → s.queue = [front] →
    exec .complete s =
      .next { s with queue := [], active := false, donePending := false, log := s.log ++ [.complete front] }) ∧
  (∀ (s : State) (front second : Frame) (rest : List Frame), s.agent = .completion → s.operational →
    s.donePending = true → s.active = true → s.emBusy = false → s.queue = front :: second :: rest →
    exec .complete s =
      .next { s with
        queue := second :: rest, donePending := false, emBusy := true, emFrame := second,
        log := s.log ++ [.complete front, .start second],
        out := { s.out with emStart := true, emTrain := some (toSignal s.cfg second) } })

/-- R158, R159, R156. The frame of `COMPLETE`, `EMIT_DONE` and `START`: the configuration, the surroundings, the
acknowledgement (but for a raised fault) and the results of the pure functions are unchanged; `EMIT_DONE` leaves the
queue and `active` alone and `START` the queue, `active` and the latch. -/
def Obligations.CompletionSideFrame : Prop :=
  ∀ (i : Instr) (s t : State), i = .complete ∨ i = .emitDone ∨ (∃ f, i = .start f) → exec i s = .next t →
    t.initialised = s.initialised ∧ t.cfg = s.cfg ∧ s.sameSurroundings t ∧ s.samePureResults t ∧
    (t.fault = s.fault → t.out.pAck = s.out.pAck) ∧
    (i = .emitDone → t.queue = s.queue ∧ t.active = s.active ∧ t.emFrame = s.emFrame ∧ t.fault = s.fault ∧
      t.out = s.out) ∧
    ((∃ f, i = .start f) → t.queue = s.queue ∧ t.active = s.active ∧ t.donePending = s.donePending)

/-! ### The fatal fault and the halted state (`spec/60_exceptions.md` section 2) -/

/-- R195. The tests that raise `InvariantViolation`, as the pseudocode of R153, R160, R159 and R156 has them: `active` and
the queue disagree, a notification is pending with nothing in flight, or a train is about to be started while one is in
flight (by `ENQ` into an idle queue or by `COMPLETE` with entries left). -/
def Obligations.DisagreementRaisesInvariantViolation : Prop :=
  (∀ (s : State) (f : Frame), s.servesProducer → s.operational → s.roomFor →
    (s.active = true ↔ s.queue = []) → exec (.enq f) s = .next s.raiseInvariantViolation) ∧
  (∀ s : State, s.servesProducer → s.operational → s.par.hasAbort = true →
    (s.active = true ↔ s.queue = []) → exec .abort s = .next s.raiseInvariantViolation) ∧
  (∀ s : State, s.agent = .completion → s.operational → s.donePending = true →
    s.active = false ∨ s.queue = [] → exec .complete s = .next s.raiseInvariantViolation) ∧
  (∀ (s : State) (f : Frame), s.servesProducer → s.operational → s.roomFor →
    s.active = false → s.queue = [] → s.emBusy = true → exec (.enq f) s = .next s.raiseInvariantViolation) ∧
  (∀ (s : State) (front second : Frame) (rest : List Frame), s.agent = .completion → s.operational →
    s.donePending = true → s.active = true → s.queue = front :: second :: rest → s.emBusy = true →
    exec .complete s = .next s.raiseInvariantViolation)

/-- R196. Fault entry: whatever operation sets `fault`, the state after it is the state before it with `fault` set,
`EvFault` logged, and no acknowledgement and no start given; every other write of the step is discarded. -/
def Obligations.FaultEntryDiscardsTheStep : Prop :=
  ∀ (i : Instr) (s t : State), s.fault = .none → exec i s = .next t → t.fault ≠ .none →
    t = { s with
      fault := .invariantViolation, log := s.log ++ [.fault],
      out := { s.out with pAck := false, emStart := false } }

/-- R197, R31. The halted state: no operation but `RESET` and the pure functions has a step; the pure functions still
complete on what their rules admit; and no operation but `RESET` clears the fault. -/
def Obligations.HaltedBlockOnlyResets : Prop :=
  (∀ (i : Instr) (s : State), s.fault ≠ .none → pureOp i = false → i ≠ .reset → ∃ why, exec i s = .refused why) ∧
  (∀ (i : Instr) (s : State), pureOp i = true → i.wellFormed = true → listedFor i s.agent →
    (∀ p, s.agent = .producer p → p < s.par.nprod) → s.initialised = true → ∃ t, exec i s = .next t) ∧
  (∀ (i : Instr) (s t : State), s.fault ≠ .none → exec i s = .next t → t.fault = .none → i = .reset)

/-! ### Whole-machine rules -/

/-- R32, R171. No operation but `COMPLETE` and `RESET` clears a pending notification. -/
def Obligations.NotificationIsNeverLost : Prop :=
  ∀ (i : Instr) (s t : State), exec i s = .next t → s.donePending = true → t.donePending = false →
    i = .complete ∨ i = .reset

/-- R28, R27. The front entry is removed only by a `COMPLETE` that finds a notification (and by `RESET`), and entries are
never reordered: what any operation leaves of the queue is a prefix of it, its tail, or it with one entry more. -/
def Obligations.OnlyACompletionRemovesTheFront : Prop :=
  ∀ (i : Instr) (s t : State), exec i s = .next t →
    (t.queue.head? = s.queue.head? ∨ s.queue = [] ∨ (i = .complete ∧ s.donePending = true) ∨ i = .reset) ∧
    (t.queue <+: s.queue ∨ t.queue = s.queue.tail ∨ ∃ f, enqueuedFrame i = some f ∧ t.queue = s.queue ++ [f])

/-- R169, R33. No cancellation: a train being emitted is not stopped or replaced by any operation but its own
`EMIT_DONE`, and by a `RESET` of a halted block. -/
def Obligations.TrainInFlightIsNeverReplaced : Prop :=
  ∀ (i : Instr) (s t : State), exec i s = .next t → s.emBusy = true →
    (t.emBusy = true ∧ t.emFrame = s.emFrame) ∨ i = .emitDone ∨ (i = .reset ∧ s.fault ≠ .none)

/-- R29, R31, R32, R33, R44. Which operations set and which clear each flag, `fault` included. -/
def Obligations.FlagsAreWrittenOnlyByTheirOperations : Prop :=
  ∀ (i : Instr) (s t : State), exec i s = .next t →
    (t.active = true → s.active = false → (enqueuedFrame i).isSome = true) ∧
    (t.active = false → s.active = true → i = .complete ∨ i = .reset) ∧
    (t.emBusy = true → s.emBusy = false →
      (enqueuedFrame i).isSome = true ∨ i = .complete ∨ ∃ f, i = .start f) ∧
    (t.emBusy = false → s.emBusy = true → i = .emitDone ∨ i = .reset) ∧
    (t.donePending = true → s.donePending = false → i = .emitDone) ∧
    (t.donePending = false → s.donePending = true → i = .complete ∨ i = .reset) ∧
    (t.fault ≠ .none → s.fault = .none → producerOp i = true ∨ i = .complete ∨ ∃ f, i = .start f) ∧
    (t.fault = .none → s.fault ≠ .none → i = .reset) ∧
    (t.initialised = true → s.initialised = false → i = .init) ∧
    (t.initialised = false → s.initialised = true → i = .reset)

/-- R34, R140. The configuration is frozen between one `INIT` and the next `RESET`: only these two write it, and `INIT`
only from an uninitialised block. That no step changes a parameter (R6, R41) is how the model carries them (log
entry 9). -/
def Obligations.ConfigurationIsFrozen : Prop :=
  (∀ (i : Instr) (s t : State), exec i s = .next t → t.cfg ≠ s.cfg → (i = .init ∧ s.initialised = false) ∨ i = .reset) ∧
  (∀ s t : State, step s = .next t → s.initialised = true → t.initialised = true → t.cfg = s.cfg) ∧
  (∀ s t : State, step s = .next t → t.par = s.par)

/-- R205, U15. A request from an agent that the table of R205 does not list for the operation has no step, and neither
has one of a producer that does not exist (R207). `START` and `TICKS` are listed for no agent: they have a step only
inside another operation, a context no request is served in (log entry 5). -/
def Obligations.UnlistedAgentsHaveNoStep : Prop :=
  (∀ (i : Instr) (s : State), ¬ listedFor i s.agent → ∃ why, exec i s = .refused why) ∧
  (∀ (i : Instr) (s : State) (p : Nat), s.agent = .producer p → s.par.nprod ≤ p → ∃ why, exec i s = .refused why)

/-- R56. Two facts that hold whatever order the arbiter picks. An `ENQ` and a `COMPLETE` served in either order from a
`Transmitting` state with a notification pending reach the same state but for the order of the log, with the same frames
started; two `ENQ`s served in either order reach states that differ only in the order of the two new entries and of the
log, and, from an idle queue, in which of the two frames is the one in flight (`em_frame`, `em_train`). (The agent served
last and the strobes of the last step are those of the last request.) -/
def Obligations.EnqueueAndCompleteCommute : Prop :=
  (∀ (s : State) (f : Frame) (p : Nat), p < s.par.nprod → s.operational → s.roomFor → s.queue ≠ [] →
    s.active = true → s.donePending = true → s.emBusy = false →
    ∃ t u, andThen (exec (.enq f) (s.by (.producer p))) (fun v => exec .complete (v.by .completion)) = .next t ∧
      andThen (exec .complete (s.by .completion)) (fun v => exec (.enq f) (v.by (.producer p))) = .next u ∧
      t.queue = u.queue ∧ t.active = u.active ∧ t.fault = u.fault ∧ t.donePending = u.donePending ∧
      t.emBusy = u.emBusy ∧ t.emFrame = u.emFrame ∧ t.initialised = u.initialised ∧ t.cfg = u.cfg ∧
      startedFrames t.log = startedFrames u.log ∧ t.log.length = u.log.length) ∧
  (∀ (s : State) (f g : Frame) (p q : Nat), p < s.par.nprod → q < s.par.nprod → s.operational →
    (∀ d, s.par.qdepth = some d → s.queue.length + 1 < d) → s.queue ≠ [] → s.active = true →
    ∃ t u, andThen (exec (.enq f) (s.by (.producer p))) (fun v => exec (.enq g) (v.by (.producer q))) = .next t ∧
      andThen (exec (.enq g) (s.by (.producer q))) (fun v => exec (.enq f) (v.by (.producer p))) = .next u ∧
      t.queue = s.queue ++ [f, g] ∧ u.queue = s.queue ++ [g, f] ∧
      t = { u with queue := t.queue, log := t.log, agent := t.agent }) ∧
  (∀ (s : State) (f g : Frame) (p q : Nat), p < s.par.nprod → q < s.par.nprod → s.operational →
    (∀ d, s.par.qdepth = some d → 1 < d) → s.queue = [] → s.active = false → s.emBusy = false →
    ∃ t u, andThen (exec (.enq f) (s.by (.producer p))) (fun v => exec (.enq g) (v.by (.producer q))) = .next t ∧
      andThen (exec (.enq g) (s.by (.producer q))) (fun v => exec (.enq f) (v.by (.producer p))) = .next u ∧
      t.queue = [f, g] ∧ u.queue = [g, f] ∧ t.emFrame = f ∧ u.emFrame = g ∧
      t.log = s.log ++ [.enq f, .start f, .enq g] ∧ u.log = s.log ++ [.enq g, .start g, .enq f] ∧
      t.out.emTrain = some (toSignal s.cfg f) ∧
      t = { u with
        queue := t.queue, log := t.log, agent := t.agent, emFrame := f,
        out := { u.out with emTrain := some (toSignal s.cfg f) } })

/-! ### PulseMap and the line (`spec/41_pulsemap.md`, R165) -/

/-- R133. `TICKS` completes at the emitter's tick rate and gives the nearest count, a tie going up. It is
performed inside `INIT` only (R82, R205; log entry 5); where the result stands is the model's choice (log entry 6). -/
def Obligations.TicksCompletes : Prop :=
  (∀ (s : State) (us : Nat), s.agent = .inside →
    exec (.ticks us) s =
      .next { s with out := { s.out with tickCount := some ((us * s.par.tickHz + 500000) / 1000000) } }) ∧
  (∀ hz us n : Nat, ticks hz us = n ↔ (2 * n * 1000000 ≤ 2 * us * hz + 1000000 ∧ 2 * us * hz < (2 * n + 1) * 1000000))

/-- R138. Each duration is off by at most half a tick, and a whole train by at most 88 half-ticks: `n` ticks against `u`
microseconds differ by at most half a tick when `2 |n * 10^6 - u * TICK_HZ| ≤ 10^6`. -/
def Obligations.RoundingErrorIsAtMostHalfATick : Prop :=
  (∀ hz us : Nat, 2 * ((ticks hz us : Int) * 1000000 - (us : Int) * hz).natAbs ≤ 1000000) ∧
  (∀ (p : Params) (f : Frame),
    2 * ((trainTicks (toSignal (loadedCfg p) f) : Int) * 1000000 -
      (((p.tSyncH + p.tSyncL) + (frameBits f).count true * (p.tOneH + p.tOneL) +
        (frameBits f).count false * (p.tZeroH + p.tZeroL) : Nat) : Int) * p.tickHz).natAbs ≤ 88 * 1000000)

/-- R136, R135. A train is one sync pair followed by one pair per bit in frame order: `sym(0)` is the sync marker and
`sym(k)` is the symbol of `f(k-1)`; after `ENCODE` the last three are those of a zero. -/
def Obligations.TrainHasOneSymbolPerBit : Prop :=
  ∀ (c : Cfg) (f : Frame),
    (toSignal c f).length = 44 ∧
    (toSignal c f)[0]? = some { high := c.syncH, low := c.syncL } ∧
    (∀ k, 1 ≤ k → k ≤ 43 →
      (toSignal c f)[k]? =
        some (if frameBit f (k - 1) then { high := c.oneH, low := c.oneL } else { high := c.zeroH, low := c.zeroL })) ∧
    (∀ (d : Command) (k : Nat), 41 ≤ k → k ≤ 43 →
      (toSignal c (encodeFrame d))[k]? = some { high := c.zeroH, low := c.zeroL })

/-- R137. The laws of `TOSIGNAL`: length, a common first symbol, injectivity under a well-formed configuration with the
frame read back by comparing each `high` with `CFG_ONE_H`, and the total length, which with the loaded defaults is
45 150 ticks for every frame. -/
def Obligations.TrainLaws : Prop :=
  (∀ (c : Cfg) (f g : Frame), (toSignal c f).length = 44 ∧ (toSignal c f).head? = (toSignal c g).head?) ∧
  (∀ (c : Cfg) (w : Nat) (f g : Frame), c.wellFormed w = true →
    ((∀ i, i < 43 → (frameBit f i = frameBit g i ↔ (toSignal c f)[i + 1]? = (toSignal c g)[i + 1]?)) ∧
      (toSignal c f = toSignal c g → f = g) ∧
      frameBits f = (toSignal c f).tail.map fun y => decide (y.high = c.oneH))) ∧
  (∀ (c : Cfg) (f : Frame),
    trainTicks (toSignal c f) =
      c.syncH + c.syncL + (frameBits f).count true * (c.oneH + c.oneL) +
        (43 - (frameBits f).count true) * (c.zeroH + c.zeroL)) ∧
  (∀ f : Frame, trainTicks (toSignal (loadedCfg Params.default) f) = 45150)

/-- R139. Under a well-formed configuration no data symbol can be taken for the sync marker: its high period is
strictly longer than any high period of the data, and every low period on the line lasts at least one tick. -/
def Obligations.SyncMarkerIsNotReachableByData : Prop :=
  ∀ (c : Cfg) (w : Nat) (f : Frame), c.wellFormed w = true →
    (toSignal c f).head?.map Symbol.high = some c.syncH ∧
    (∀ y ∈ (toSignal c f).tail, y.high < c.syncH ∧ y.high ≤ c.oneH) ∧
    (∀ y ∈ toSignal c f, 1 ≤ y.low ∧ 1 ≤ y.high) ∧
    (∀ n, (true, n) ∈ wave ((toSignal c f).tail) → n < c.syncH) ∧
    symbol c true ≠ symbol c false ∧ syncSymbol c ≠ symbol c true ∧ syncSymbol c ≠ symbol c false

/-- R136, R44, R197. `TOSIGNAL` completes after `INIT`, while halted too; before `INIT` it has no step. -/
def Obligations.TosignalCompletesAfterInit : Prop :=
  (∀ (s : State) (f : Frame), s.servesPureUser → s.initialised = true →
    exec (.toSignal f) s = .next { s with out := { s.out with mapTrain := some (toSignal s.cfg f) } }) ∧
  (∀ (s : State) (f : Frame), s.servesPureUser → s.initialised = false →
    exec (.toSignal f) s = .refused .notInitialised)

/-- R165, R26. The line: low whenever the emitter is not emitting, else the 88 entries of the train, high before low, each
symbol's durations; a train begins high and ends low. That `em_busy` gives the line in every state, the halted one
included, where the physical line has gone low by the end of the train, is the model's view (log entry 16). -/
def Obligations.LineCarriesTheTrainInFlight : Prop :=
  (∀ s : State, s.emBusy = false → s.line = .low) ∧
  (∀ s : State, s.emBusy = true → s.line = .carrying (wave (toSignal s.cfg s.emFrame))) ∧
  (∀ (c : Cfg) (f : Frame),
    (wave (toSignal c f)).length = 88 ∧
    (wave (toSignal c f)).head? = some (true, c.syncH) ∧
    ((wave (toSignal c f)).getLast?.map Prod.fst) = some false ∧
    (∀ k, k < 44 →
      (wave (toSignal c f))[2 * k]? = ((toSignal c f)[k]?.map fun y => (true, y.high)) ∧
      (wave (toSignal c f))[2 * k + 1]? = ((toSignal c f)[k]?.map fun y => (false, y.low))) ∧
    ((wave (toSignal c f)).map Prod.snd).sum = trainTicks (toSignal c f))

/-! ### The host's operations (`spec/70_reset_and_hazards.md`) -/

/-- R230, R40, R197, R239. `RESET` completes from the halted state, and from a block with nothing in flight and nothing
queued, and leaves the values R40 gives. That these are the states it is admitted from, a halted block with `em_busy` set
among them, is the model's reading (log entry 7); that it puts nothing on the output ports, which are at rest when its
step begins, is the model's form (log entry 10). What the registers that R40 calls unspecified hold afterwards is not stated. -/
def Obligations.ResetLeavesTheResetState : Prop :=
  ∀ s : State, s.agent = .host → (s.fault ≠ .none ∨ s.quiet) →
    ∃ t, exec .reset s = .next t ∧
      t.queue = [] ∧ t.active = false ∧ t.fault = .none ∧ t.donePending = false ∧ t.emBusy = false ∧
      t.initialised = false ∧ t.log = [] ∧ t.line = .low ∧ t.qstate = .idle ∧
      t.stQlen = 0 ∧ t.stFault = false ∧ t.kIrq = false ∧ s.sameSurroundings t ∧ t.out = s.out

/-- R239, U6. Without a fault, neither `RESET` nor `INIT` has a step while a train is in flight or frames are queued; and a
second `INIT` has none. -/
def Obligations.NoResetOrInitWhileWorkIsPending : Prop :=
  (∀ s : State, s.agent = .host → s.fault = .none → ¬ s.quiet →
    exec .reset s = .refused .workPending ∧ ∃ why, exec .init s = .refused why) ∧
  (∀ s : State, s.agent = .host → s.fault = .none → s.initialised = true →
    exec .init s = .refused .alreadyInitialised)

/-- R231, R34, R35. `INIT` of an uninitialised block loads the six constants in ticks and the tick rate, and sets
`initialised`; a configuration that is not well formed has no step (U10). -/
def Obligations.InitLoadsTheConfiguration : Prop :=
  (∀ s : State, s.agent = .host → s.fault = .none → s.initialised = false → s.quiet →
    (loadedCfg s.par).wellFormed s.par.durW = true →
    exec .init s =
      .next { s with
        initialised := true,
        cfg :=
          { tickHz := s.par.tickHz,
            syncH := ticks s.par.tickHz s.par.tSyncH, syncL := ticks s.par.tickHz s.par.tSyncL,
            oneH := ticks s.par.tickHz s.par.tOneH, oneL := ticks s.par.tickHz s.par.tOneL,
            zeroH := ticks s.par.tickHz s.par.tZeroH, zeroL := ticks s.par.tickHz s.par.tZeroL } }) ∧
  (∀ s : State, s.agent = .host → s.fault = .none → s.initialised = false → s.quiet →
    (loadedCfg s.par).wellFormed s.par.durW = false →
    exec .init s = .refused .illFormedConfiguration)

/-- R131, R134, R35. Every choice of the six constants inside the source's ranges is well formed at one tick per
microsecond with 16-bit counts, and each count is then the constant itself; the defaults give 1400, 750, 750, 250, 250,
750. -/
def Obligations.AdmittedConstantsAreWellFormed : Prop :=
  (∀ p : Params, paramsAdmitted p = true → p.tickHz = 1000000 → p.durW = 16 →
    (loadedCfg p).wellFormed p.durW = true ∧
    loadedCfg p =
      { tickHz := 1000000, syncH := p.tSyncH, syncL := p.tSyncL, oneH := p.tOneH, oneL := p.tOneL,
        zeroH := p.tZeroH, zeroL := p.tZeroL }) ∧
  loadedCfg Params.default =
    { tickHz := 1000000, syncH := 1400, syncL := 750, oneH := 750, oneL := 250, zeroH := 250, zeroL := 750 }

/-- R44. While `initialised` is false, the producers' queue operations, `COMPLETE` and `TOSIGNAL` have no step; `ENCODE`,
`DECODE` and `CHECKSUM` do not depend on it. -/
def Obligations.NothingQueuedBeforeInit : Prop :=
  (∀ (i : Instr) (s : State), s.initialised = false →
    producerOp i = true ∨ i = .complete ∨ (∃ f, i = .toSignal f) → ∃ why, exec i s = .refused why) ∧
  (∀ (i : Instr) (s : State) (b : Bool),
    ((∃ id channel action n, i = .encode id channel action n) ∨ (∃ bits, i = .decode bits) ∨
      ∃ b0 b1 b2 b3, i = .checksum b0 b1 b2 b3) →
    ∀ t, exec i s = .next t → exec i { s with initialised := b } = .next { t with initialised := b })

/-! ### The invariant of R37 and what follows from it -/

/-- R40. The reset state meets the invariant. -/
def Obligations.ResetMeetsTheInvariant : Prop := State.reset.Inv

/-- R37. Every step keeps the invariant, from every state that meets it. -/
def Obligations.EveryStepKeepsTheInvariant : Prop :=
  ∀ s t : State, s.Inv → step s = .next t → t.Inv

/-- R195. Under the invariant no operation of an agent of R9 raises `InvariantViolation`, and none stops with a fault. -/
def Obligations.InvariantViolationIsUnreachable : Prop :=
  ∀ (i : Instr) (s : State), s.Inv → s.agent ≠ .inside →
    (∀ r, exec i s ≠ .fault r) ∧ (∀ t, exec i s = .next t → t.fault = .none)

/-- R37 I5 and I6, R164. Under the invariant at most one train is in flight, by the count of starts and completions; the
started frames are a prefix of the enqueued ones with the aborted struck out; and the completed frames are the same
sequence, one behind exactly while `active`. -/
def Obligations.StartsAreFifoAndOneInFlight : Prop :=
  ∀ s : State, s.Inv →
    (startedFrames s.log).length = (completedFrames s.log).length + (if s.active then 1 else 0) ∧
    startedFrames s.log <+: survivingFrames s.log ∧
    completedFrames s.log <+: emittedFrames s.log ∧ emittedFrames s.log <+: startedFrames s.log ∧
    (s.active = false → survivingFrames s.log = completedFrames s.log) ∧
    s.queue.length = (survivingFrames s.log).length - (completedFrames s.log).length

/-- R166. From every state that meets the invariant, once initialised, if the producers stop and the emitter and the
completion context take their steps in turn, the block is quiet after exactly `length(queue)` rounds, each completing one
entry, in queue order, with no fault. The schedule is one fair one (log entry 13); `EveryFairRunDrains` speaks of all. -/
def Obligations.QueueDrainsInOrder : Prop :=
  ∀ s : State, s.Inv → s.initialised = true →
    ∃ t, drain s.queue.length s = .next t ∧ t.quiet ∧ t.fault = .none ∧
      completedFrames t.log = completedFrames s.log ++ s.queue ∧
      startedFrames t.log = survivingFrames s.log

/-- R166, R11. Under the fairness of the emitter, the completion context and the arbiter, every run from a state that
meets the invariant in which the producers issue nothing reaches the quiescent state, after exactly `length(queue)`
`COMPLETE`s that find a notification, having completed the queue in order, and stays quiescent. What a run is, with its
requests waiting at the ports, is the model's form (log entry 13). -/
def Obligations.EveryFairRunDrains : Prop :=
  ∀ ρ : Run, ρ.Legal → ρ.Fair → ρ.producersStopped → (ρ.state 0).Inv →
    ∃ n, (ρ.state n).quiescentWith (ρ.ports n) ∧ ρ.handled n = (ρ.state 0).queue.length ∧
      completedFrames (ρ.state n).log = completedFrames (ρ.state 0).log ++ (ρ.state 0).queue ∧
      ∀ m, n ≤ m → (ρ.state m).quiescentWith (ρ.ports m) ∧ ρ.handled m = (ρ.state 0).queue.length

/-! ### Words and steps -/

/-- R76, R82. Decoding the encoding of an operation gives the operation back, for every operation and every operand of
its type, well formed or not. -/
def Obligations.EveryEncodedInstructionDecodes : Prop :=
  ∀ i : Instr, decode (encode i) = .ok i

/-- R76, R80, R82, R83. The other direction: a frame word that presents a wire action is, but for its terminator, the
encoding of that action. A value on `p_op` that presents an operation is `0x0` to `0x3`, a label that does is `0x4` to
`0xD`, each the number the operation's encoding carries; `0x4` to `0xD` on `p_op` are no producer operation, and `0xE` and
`0xF` name nothing. -/
def Obligations.EveryWordHasOneMeaning : Prop :=
  (∀ (w : Frame) (i : Instr), decode (.wire w) = .ok i →
    ∃ v : Frame, encode i = .wire v ∧ v.extractLsb' 3 40 = w.extractLsb' 3 40) ∧
  (∀ (n : Nibble) (cmd : CmdWord) (f : Frame) (i : Instr), decode (.pOp n cmd f) = .ok i →
    n.toNat ≤ 3 ∧ ∃ cmd' f', encode i = .pOp n cmd' f') ∧
  (∀ (n : Nibble) (o : OperandPorts) (i : Instr), decode (.label n o) = .ok i →
    4 ≤ n.toNat ∧ n.toNat ≤ 13 ∧ ∃ o', encode i = .label n o') ∧
  (∀ (n : Nibble) (cmd : CmdWord) (f : Frame),
    (decode (.pOp n cmd f) = .error .notAProducerOperation ↔ 4 ≤ n.toNat ∧ n.toNat ≤ 13) ∧
    (decode (.pOp n cmd f) = .error .reservedOpn ↔ 14 ≤ n.toNat)) ∧
  (∀ (n : Nibble) (o : OperandPorts),
    (decode (.label n o) = .error .producerOperation ↔ n.toNat ≤ 3) ∧
    (decode (.label n o) = .error .reservedOpn ↔ 14 ≤ n.toNat))

/-- R70, R76, R82. Words written out from the spec's encodings decode to the operations they stand for: the source's
known vector, one more of each wire action, and operation numbers of each family; a frame with a wrong checksum is no
wire action. -/
def Obligations.WordsFromTheSpecDecode : Prop :=
  decodeTableWord 48 0b0010110010111110000000100011001000011110000 = some (.vibrate 0x2CBE .zero 50) ∧
  decodeTableWord 48 0b1010101111001101001000010011001011001011000 = some (.shock 0xABCD .two 50) ∧
  decodeTableWord 48 0b0001001000110100000100110110001110111100000 = some (.beep 0x1234 .one 99) ∧
  decodeTableWord 48 0b1111111111111111001001001111111100100001000 = some (.light 0xFFFF .two 255) ∧
  decodeTableWord 48 0b0010110010111110000000100011001000011111000 = none ∧
  decodeTableWord 8 0b0000 = some .nop ∧ decodeTableWord 8 0b0011 = some .abort ∧
  decodeTableWord 8 0b0100 = some .complete ∧ decodeTableWord 8 0b0101 = some .emitDone ∧
  decodeTableWord 8 0b0111 = some .reset ∧ decodeTableWord 8 0b1101 = some .init ∧
  decodeTableWord 8 0b1110 = none ∧ decodeTableWord 8 0b1111 = none

/-- R10, R55, R85. A step runs the decoded operation: when the request that stands alone at the ports decodes to `i`, the
step is `exec i` in the state with the request taken, its agent served, the output ports at rest and the free-value
counter moved on; a word that presents no operation has no step; with no request the output ports come to rest and nothing
else changes. The form in which requests wait, and that a port is driven in its own step only, are the model's (log
entries 6, 10 and 14). -/
def Obligations.StepRunsTheDecodedInstruction : Prop :=
  (∀ (s : State) (r : Request) (later : List (List Request)) (i : Instr),
    s.program = [r] :: later → decode r.word = .ok i →
    step s =
      exec i { s with
        agent := r.agent.context, program := later, freeCount := s.freeCount + 1,
        out := Outputs.rest }) ∧
  (∀ (s : State) (r : Request) (later : List (List Request)) (why : Reject),
    s.program = [r] :: later → decode r.word = .error why → step s = .refused (.noOperation why)) ∧
  (∀ (s : State) (nbits w : Nat) (i : Instr), decodeTableWord nbits w = some i →
    step (s.withFetchWord nbits w) =
      exec i { s with
        agent := (performerOf i).context, freeCount := s.freeCount + 1,
        out := Outputs.rest }) ∧
  (∀ s : State, s.program = [] →
    step s = .next { s with out := Outputs.rest })

/-- R56, R57, R201. Among simultaneous requests the step serves exactly one, the first of its agent (an agent's operations
keep the order in which it issued them), and leaves the others at the ports. That one request which is the first of its
agent and has a step in the state as it is is enough for the block to take a step is the model's choice (log entry 12); the
order among the agents is a free value (log entry 2). -/
def Obligations.OneOfSimultaneousRequestsIsServed : Prop :=
  (∀ (s t : State) (group : List Request) (later : List (List Request)),
    s.program = group :: later → 2 ≤ group.length → step s = .next t →
    ∃ (k : Nat) (r : Request) (i : Instr), group[k]? = some r ∧ decode r.word = .ok i ∧
      (∀ (j : Nat) (u : Request), j < k → group[j]? = some u → u.agent ≠ r.agent) ∧
      exec i (s.serving r.agent (group.eraseIdx k :: later)) = .next t) ∧
  (∀ (s : State) (group : List Request) (later : List (List Request)) (k : Nat) (r : Request) (i : Instr) (t : State),
    s.program = group :: later → group[k]? = some r →
    (∀ (j : Nat) (u : Request), j < k → group[j]? = some u → u.agent ≠ r.agent) → decode r.word = .ok i →
    exec i (s.serving r.agent later) = .next t → ∃ u, step s = .next u)

end
end

