-- ==== Sys2Proof/Laws/Codec.lean ====
section
/-! SUPPORT. The small lemmas of the codec's definitions: bit sequences and fields, nibbles and Commands, one spec lemma
per function. -/

namespace Sys2Proof

/-! ### Bit sequences -/

@[simp] theorem val_nil : val [] = 0 := rfl

/-- One more bit at the end doubles the number. -/
theorem val_snoc (s : BitSeq) (b : Bool) : val (s ++ [b]) = 2 * val s + b.toNat := by
  simp [val, List.foldl_append]

/-- The bits of `val(s)`, counted from the end of `s`. -/
theorem testBit_val (s : BitSeq) (i : Nat) : (val s).testBit i = s.reverse[i]?.getD false := by
  induction s using List.reverseRecOn generalizing i with
  | nil => simp
  | append_singleton s b ih =>
    rw [val_snoc]
    cases i with
    | zero => cases b <;> simp [Nat.testBit_zero]
    | succ i =>
      have h : (2 * val s + b.toNat) / 2 = val s := by cases b <;> (simp; try omega)
      rw [Nat.testBit_succ, h, ih]
      simp

@[simp] theorem length_be (n v : Nat) : (be n v).length = n := by simp [be]

@[simp] theorem length_frameBits (w : Frame) : (frameBits w).length = 43 := by simp [frameBits]

/-- A bit of a frame's sequence. -/
theorem getElem?_frameBits (w : Frame) (i : Nat) :
    (frameBits w)[i]? = if i < 43 then some (frameBit w i) else none := by
  by_cases h : i < 43
  · simp [frameBits, h]
  · rw [if_neg h, List.getElem?_eq_none]
    simpa using h

/-- The bits of a field of a sequence, from its least significant up. -/
theorem getLsbD_field (s : BitSeq) (a n i : Nat) (hi : i < n) (hs : a + n ≤ s.length) :
    (field s a n).getLsbD i = s[a + (n - 1 - i)]?.getD false := by
  have hl : (slice s a n).length = n := by simp [slice]; omega
  have hr : i < (slice s a n).length := by omega
  rw [field, BitVec.getLsbD_ofNat, testBit_val]
  simp only [hi, decide_true, Bool.true_and, List.getElem?_reverse hr, hl]
  rw [slice, List.getElem?_take_of_lt (by omega), List.getElem?_drop]

/-- A field of a frame, read off its number (R12, R70). -/
theorem field_frameBits (w : Frame) (a n : Nat) (h : a + n ≤ 43) :
    field (frameBits w) a n = w.extractLsb' (43 - a - n) n := by
  apply BitVec.eq_of_getLsbD_eq
  intro i hi
  rw [getLsbD_field _ _ _ _ hi (by simpa using h), getElem?_frameBits, if_pos (by omega)]
  simp only [Option.getD_some, frameBit, BitVec.getMsbD, BitVec.getLsbD_extractLsb', hi, decide_true, Bool.true_and]
  have : a + (n - 1 - i) < 43 := by omega
  simp only [this, decide_true, Bool.true_and]
  congr 1
  omega

/-- A field that ends at `b` or before is not changed by what follows. -/
theorem field_append (s u : BitSeq) (a n : Nat) (h : a + n ≤ s.length) : field (s ++ u) a n = field s a n := by
  unfold field slice
  rw [List.drop_append_of_le_length (by omega), List.take_append_of_le_length (by simp; omega)]

/-- A field that ends at `b` or before is not changed by cutting the sequence there. -/
theorem field_take (s : BitSeq) (a n b : Nat) (h : a + n ≤ b) : field (s.take b) a n = field s a n := by
  unfold field slice
  rw [List.drop_take, List.take_take]
  congr 3
  omega

/-! ### Nibbles and Commands -/

@[simp] theorem Channel.ofNibble_nibble (c : Channel) : Channel.ofNibble c.nibble = some c := by cases c <;> rfl

@[simp] theorem Action.ofNibble_nibble (a : Action) : Action.ofNibble a.nibble = some a := by cases a <;> rfl

/-- Everything `Channel.ofNibble` answers. -/
theorem Channel.ofNibble_eq_some {n : Nibble} {c : Channel} : Channel.ofNibble n = some c ↔ n = c.nibble := by
  revert n c
  intro n c
  cases c <;> revert n <;> decide

/-- Everything `Action.ofNibble` answers. -/
theorem Action.ofNibble_eq_some {n : Nibble} {a : Action} : Action.ofNibble n = some a ↔ n = a.nibble := by
  revert n a
  intro n a
  cases a <;> revert n <;> decide

/-- A nibble that is no channel (R73). -/
theorem Channel.ofNibble_eq_none {n : Nibble} : Channel.ofNibble n = none ↔ 3 ≤ n.toNat := by
  revert n
  decide

/-- A nibble that is no action (R74). -/
theorem Action.ofNibble_eq_none {n : Nibble} : Action.ofNibble n = none ↔ n.toNat = 0 ∨ 5 ≤ n.toNat := by
  revert n
  decide

/-- Different channels have different nibbles. -/
theorem Channel.nibble_inj {x y : Channel} : x.nibble = y.nibble ↔ x = y := by cases x <;> cases y <;> decide

/-- Different actions have different nibbles. -/
theorem Action.nibble_inj {x y : Action} : x.nibble = y.nibble ↔ x = y := by cases x <;> cases y <;> decide

/-- Everything `Command.ofPorts` answers (R20). -/
theorem Command.ofPorts_eq_some {id : DeviceId} {channel action : Nibble} {n : Byte} {c : Command} :
    Command.ofPorts id channel action n = some c ↔
      c.id = id ∧ channel = c.channel.nibble ∧ action = c.action.nibble ∧ c.intensity = n := by
  unfold Command.ofPorts
  rcases hc : Channel.ofNibble channel with _ | ch <;> rcases ha : Action.ofNibble action with _ | ac <;> simp only
  · constructor
    · simp
    · rintro ⟨-, rfl, -⟩; simp at hc
  · constructor
    · simp
    · rintro ⟨-, rfl, -⟩; simp at hc
  · constructor
    · simp
    · rintro ⟨-, -, rfl, -⟩; simp at ha
  · rw [Channel.ofNibble_eq_some] at hc
    rw [Action.ofNibble_eq_some] at ha
    subst hc ha
    rcases c with ⟨i, x, y, m⟩
    simp only [Option.some.injEq, Command.mk.injEq]
    constructor
    · rintro ⟨rfl, rfl, rfl, rfl⟩; simp
    · rintro ⟨rfl, h1, h2, rfl⟩; exact ⟨rfl, Channel.nibble_inj.mp h1, Action.nibble_inj.mp h2, rfl⟩

/-- A Command's operands are that Command. -/
@[simp] theorem Command.ofPorts_nibbles (c : Command) :
    Command.ofPorts c.id c.channel.nibble c.action.nibble c.intensity = some c := by
  simp [Command.ofPorts]

/-- Operands that are no Command (U1). -/
theorem Command.ofPorts_eq_none {id : DeviceId} {channel action : Nibble} {n : Byte}
    (h : 2 < channel.toNat ∨ action.toNat = 0 ∨ 4 < action.toNat) :
    Command.ofPorts id channel action n = none := by
  unfold Command.ofPorts
  rcases h with h | h
  · rw [Channel.ofNibble_eq_none.mpr (by omega)]
  · rw [Action.ofNibble_eq_none.mpr (by omega)]
    cases Channel.ofNibble channel <;> rfl

/-- Legal operands are a Command (`Instr.wellFormed`). -/
theorem Command.ofPorts_of_legal {id : DeviceId} {channel action : Nibble} {n : Byte}
    (h : (channelLegal channel && actionLegal action) = true) : ∃ c, Command.ofPorts id channel action n = some c := by
  simp only [channelLegal, actionLegal, Bool.and_eq_true, decide_eq_true_eq] at h
  obtain ⟨h1, h2, h3⟩ := h
  unfold Command.ofPorts
  rcases hc : Channel.ofNibble channel with _ | ch
  · rw [Channel.ofNibble_eq_none] at hc; omega
  · rcases ha : Action.ofNibble action with _ | ac
    · rw [Action.ofNibble_eq_none] at ha; omega
    · exact ⟨_, rfl⟩

/-! ### The Command word and its parts -/

@[simp] theorem portId_pack (id : DeviceId) (c a : Nibble) (n : Byte) : portId (packPorts id c a n) = id := by
  ext i hi
  simp only [portId, packPorts, BitVec.getElem_extractLsb', BitVec.getLsbD_append]
  simp [show ¬ (16 + i < 8) by omega, show ¬ (16 + i - 8 < 4) by omega,
    show ¬ (16 + i - 8 - 4 < 4) by omega, show 16 + i - 8 - 4 - 4 = i by omega, BitVec.getLsbD_eq_getElem hi]

@[simp] theorem portChannel_pack (id : DeviceId) (c a : Nibble) (n : Byte) : portChannel (packPorts id c a n) = c := by
  ext i hi
  simp only [portChannel, packPorts, BitVec.getElem_extractLsb', BitVec.getLsbD_append]
  simp [show ¬ (12 + i < 8) by omega, show ¬ (12 + i - 8 < 4) by omega,
    show 12 + i - 8 - 4 = i by omega, hi]

@[simp] theorem portAction_pack (id : DeviceId) (c a : Nibble) (n : Byte) : portAction (packPorts id c a n) = a := by
  ext i hi
  simp only [portAction, packPorts, BitVec.getElem_extractLsb', BitVec.getLsbD_append]
  simp [show ¬ (8 + i < 8) by omega, show 8 + i - 8 = i by omega, hi]

@[simp] theorem portIntensity_pack (id : DeviceId) (c a : Nibble) (n : Byte) :
    portIntensity (packPorts id c a n) = n := by
  ext i hi
  simp only [portIntensity, packPorts, BitVec.getElem_extractLsb', BitVec.getLsbD_append]
  simp [hi]

/-- The bytes of a Command word (R52, R103). -/
theorem payloadByte_append (b0 b1 b2 b3 : Byte) :
    payloadByte (b0 ++ b1 ++ b2 ++ b3) 0 = b0 ∧ payloadByte (b0 ++ b1 ++ b2 ++ b3) 1 = b1 ∧
    payloadByte (b0 ++ b1 ++ b2 ++ b3) 2 = b2 ∧ payloadByte (b0 ++ b1 ++ b2 ++ b3) 3 = b3 := by
  refine ⟨?_, ?_, ?_, ?_⟩ <;> ext i hi <;>
    simp only [payloadByte, BitVec.getElem_extractLsb', BitVec.getLsbD_append, Nat.reduceMul, Nat.reduceSub]
  · simp [show ¬ (24 + i < 8) by omega, show ¬ (24 + i - 8 < 8) by omega, show ¬ (24 + i - 8 - 8 < 8) by omega,
      show 24 + i - 8 - 8 - 8 = i by omega, BitVec.getLsbD_eq_getElem hi]
  · simp [show ¬ (16 + i < 8) by omega, show ¬ (16 + i - 8 < 8) by omega, show 16 + i - 8 - 8 = i by omega, hi]
  · simp [show ¬ (8 + i < 8) by omega, show 8 + i - 8 = i by omega, hi]
  · simp [hi]

/-- The three parts of a frame: payload, checksum, terminator (R70, R71, R77, R78). -/
theorem encodeFrame_parts (c : Command) :
    (encodeFrame c).extractLsb' 11 32 = c.word ∧ (encodeFrame c).extractLsb' 3 8 = wordChecksum c.word ∧
    (encodeFrame c).extractLsb' 0 3 = 0 := by
  refine ⟨?_, ?_, ?_⟩ <;> ext i hi <;>
    simp only [encodeFrame, BitVec.getElem_extractLsb', BitVec.getLsbD_append]
  · simp [show ¬ (11 + i < 3) by omega, show ¬ (11 + i - 3 < 8) by omega, show 11 + i - 3 - 8 = i by omega, BitVec.getLsbD_eq_getElem hi]
  · simp [show ¬ (3 + i < 3) by omega, show 3 + i - 3 = i by omega, hi]
  · simp [hi]

/-- `CHECKSUM` is addition in an 8-bit register (R101). -/
theorem checksum_toNat (b0 b1 b2 b3 : Byte) :
    (checksum b0 b1 b2 b3).toNat = (b0.toNat + b1.toNat + b2.toNat + b3.toNat) % 256 := by
  have h0 := b0.isLt
  have h1 := b1.isLt
  have h2 := b2.isLt
  have h3 := b3.isLt
  simp only [checksum, BitVec.extractLsb'_toNat, BitVec.toNat_add, BitVec.toNat_setWidth, Nat.shiftRight_zero]
  omega

/-- `DECODE`: everything it answers, by the fields of the sequence (R106). -/
theorem decodeBits_ok {s : BitSeq} {c : Command} :
    decodeBits s = .ok c ↔
      c.id = field s 0 16 ∧ field s 16 4 = c.channel.nibble ∧ field s 20 4 = c.action.nibble ∧
      c.intensity = field s 24 8 ∧
      checksum (field s 0 8) (field s 8 8) (field s 16 8) (field s 24 8) = field s 32 8 := by
  unfold decodeBits
  rcases hc : Channel.ofNibble (field s 16 4) with _ | ch
  · simp only [reduceCtorEq, false_iff]
    rintro ⟨-, h, -⟩; rw [h] at hc; simp at hc
  · rcases ha : Action.ofNibble (field s 20 4) with _ | ac
    · simp only [reduceCtorEq, false_iff]
      rintro ⟨-, -, h, -⟩; rw [h] at ha; simp at ha
    · rw [Channel.ofNibble_eq_some] at hc
      rw [Action.ofNibble_eq_some] at ha
      simp only [hc, ha, Channel.nibble_inj, Action.nibble_inj]
      rcases c with ⟨i, x, y, m⟩
      split
      · simp only [Except.ok.injEq, Command.mk.injEq]
        constructor
        · rintro ⟨rfl, rfl, rfl, rfl⟩; exact ⟨rfl, rfl, rfl, rfl, by assumption⟩
        · rintro ⟨rfl, rfl, rfl, rfl, -⟩; simp
      · simp_all

end Sys2Proof
end

