-- ==== Sys2Proof/Laws/State.lean ====
section
/-! SUPPORT. One lemma per field per update of `State`, so that no later proof unfolds an update. -/

namespace Sys2Proof.Machine

section
variable (s : State) (e : Event)

@[simp] theorem State.record_queue : (s.record e).queue = s.queue := rfl
@[simp] theorem State.record_active : (s.record e).active = s.active := rfl
@[simp] theorem State.record_fault : (s.record e).fault = s.fault := rfl
@[simp] theorem State.record_donePending : (s.record e).donePending = s.donePending := rfl
@[simp] theorem State.record_emBusy : (s.record e).emBusy = s.emBusy := rfl
@[simp] theorem State.record_emFrame : (s.record e).emFrame = s.emFrame := rfl
@[simp] theorem State.record_initialised : (s.record e).initialised = s.initialised := rfl
@[simp] theorem State.record_cfg : (s.record e).cfg = s.cfg := rfl
@[simp] theorem State.record_log : (s.record e).log = s.log ++ [e] := rfl
@[simp] theorem State.record_par : (s.record e).par = s.par := rfl
@[simp] theorem State.record_agent : (s.record e).agent = s.agent := rfl
@[simp] theorem State.record_program : (s.record e).program = s.program := rfl
@[simp] theorem State.record_out : (s.record e).out = s.out := rfl
@[simp] theorem State.record_freeCount : (s.record e).freeCount = s.freeCount := rfl

end

section
variable (s : State)

@[simp] theorem State.acknowledge_queue : s.acknowledge.queue = s.queue := rfl
@[simp] theorem State.acknowledge_active : s.acknowledge.active = s.active := rfl
@[simp] theorem State.acknowledge_fault : s.acknowledge.fault = s.fault := rfl
@[simp] theorem State.acknowledge_donePending : s.acknowledge.donePending = s.donePending := rfl
@[simp] theorem State.acknowledge_emBusy : s.acknowledge.emBusy = s.emBusy := rfl
@[simp] theorem State.acknowledge_emFrame : s.acknowledge.emFrame = s.emFrame := rfl
@[simp] theorem State.acknowledge_initialised : s.acknowledge.initialised = s.initialised := rfl
@[simp] theorem State.acknowledge_cfg : s.acknowledge.cfg = s.cfg := rfl
@[simp] theorem State.acknowledge_log : s.acknowledge.log = s.log := rfl
@[simp] theorem State.acknowledge_par : s.acknowledge.par = s.par := rfl
@[simp] theorem State.acknowledge_agent : s.acknowledge.agent = s.agent := rfl
@[simp] theorem State.acknowledge_program : s.acknowledge.program = s.program := rfl
@[simp] theorem State.acknowledge_out : s.acknowledge.out = { s.out with pAck := true } := rfl
@[simp] theorem State.acknowledge_freeCount : s.acknowledge.freeCount = s.freeCount := rfl

end

section
variable (s : State)

@[simp] theorem State.raiseInvariantViolation_queue : s.raiseInvariantViolation.queue = s.queue := rfl
@[simp] theorem State.raiseInvariantViolation_active : s.raiseInvariantViolation.active = s.active := rfl
@[simp] theorem State.raiseInvariantViolation_fault : s.raiseInvariantViolation.fault = .invariantViolation := rfl
@[simp] theorem State.raiseInvariantViolation_donePending : s.raiseInvariantViolation.donePending = s.donePending := rfl
@[simp] theorem State.raiseInvariantViolation_emBusy : s.raiseInvariantViolation.emBusy = s.emBusy := rfl
@[simp] theorem State.raiseInvariantViolation_emFrame : s.raiseInvariantViolation.emFrame = s.emFrame := rfl
@[simp] theorem State.raiseInvariantViolation_initialised : s.raiseInvariantViolation.initialised = s.initialised := rfl
@[simp] theorem State.raiseInvariantViolation_cfg : s.raiseInvariantViolation.cfg = s.cfg := rfl
@[simp] theorem State.raiseInvariantViolation_log : s.raiseInvariantViolation.log = s.log ++ [.fault] := rfl
@[simp] theorem State.raiseInvariantViolation_par : s.raiseInvariantViolation.par = s.par := rfl
@[simp] theorem State.raiseInvariantViolation_agent : s.raiseInvariantViolation.agent = s.agent := rfl
@[simp] theorem State.raiseInvariantViolation_program : s.raiseInvariantViolation.program = s.program := rfl
@[simp] theorem State.raiseInvariantViolation_out : s.raiseInvariantViolation.out = { s.out with pAck := false, emStart := false } := rfl
@[simp] theorem State.raiseInvariantViolation_freeCount : s.raiseInvariantViolation.freeCount = s.freeCount := rfl

end

section
variable (s : State) (f : Frame)

@[simp] theorem State.started_queue : (s.started f).queue = s.queue := rfl
@[simp] theorem State.started_active : (s.started f).active = s.active := rfl
@[simp] theorem State.started_fault : (s.started f).fault = s.fault := rfl
@[simp] theorem State.started_donePending : (s.started f).donePending = s.donePending := rfl
@[simp] theorem State.started_emBusy : (s.started f).emBusy = true := rfl
@[simp] theorem State.started_emFrame : (s.started f).emFrame = f := rfl
@[simp] theorem State.started_initialised : (s.started f).initialised = s.initialised := rfl
@[simp] theorem State.started_cfg : (s.started f).cfg = s.cfg := rfl
@[simp] theorem State.started_log : (s.started f).log = s.log ++ [.start f] := rfl
@[simp] theorem State.started_par : (s.started f).par = s.par := rfl
@[simp] theorem State.started_agent : (s.started f).agent = s.agent := rfl
@[simp] theorem State.started_program : (s.started f).program = s.program := rfl
@[simp] theorem State.started_out : (s.started f).out = { s.out with emStart := true, emTrain := some (toSignal s.cfg f) } := rfl
@[simp] theorem State.started_freeCount : (s.started f).freeCount = s.freeCount := rfl

end

section
variable (s : State)

@[simp] theorem State.emissionDone_queue : s.emissionDone.queue = s.queue := rfl
@[simp] theorem State.emissionDone_active : s.emissionDone.active = s.active := rfl
@[simp] theorem State.emissionDone_fault : s.emissionDone.fault = s.fault := rfl
@[simp] theorem State.emissionDone_donePending : s.emissionDone.donePending = true := rfl
@[simp] theorem State.emissionDone_emBusy : s.emissionDone.emBusy = false := rfl
@[simp] theorem State.emissionDone_emFrame : s.emissionDone.emFrame = s.emFrame := rfl
@[simp] theorem State.emissionDone_initialised : s.emissionDone.initialised = s.initialised := rfl
@[simp] theorem State.emissionDone_cfg : s.emissionDone.cfg = s.cfg := rfl
@[simp] theorem State.emissionDone_log : s.emissionDone.log = s.log ++ [.done s.emFrame] := rfl
@[simp] theorem State.emissionDone_par : s.emissionDone.par = s.par := rfl
@[simp] theorem State.emissionDone_agent : s.emissionDone.agent = s.agent := rfl
@[simp] theorem State.emissionDone_program : s.emissionDone.program = s.program := rfl
@[simp] theorem State.emissionDone_out : s.emissionDone.out = s.out := rfl
@[simp] theorem State.emissionDone_freeCount : s.emissionDone.freeCount = s.freeCount := rfl

end

section
variable (s : State)

@[simp] theorem State.toReset_queue : s.toReset.queue = [] := rfl
@[simp] theorem State.toReset_active : s.toReset.active = false := rfl
@[simp] theorem State.toReset_fault : s.toReset.fault = .none := rfl
@[simp] theorem State.toReset_donePending : s.toReset.donePending = false := rfl
@[simp] theorem State.toReset_emBusy : s.toReset.emBusy = false := rfl
@[simp] theorem State.toReset_emFrame : s.toReset.emFrame = 0 := rfl
@[simp] theorem State.toReset_initialised : s.toReset.initialised = false := rfl
@[simp] theorem State.toReset_cfg : s.toReset.cfg = Cfg.zero := rfl
@[simp] theorem State.toReset_log : s.toReset.log = [] := rfl
@[simp] theorem State.toReset_par : s.toReset.par = s.par := rfl
@[simp] theorem State.toReset_agent : s.toReset.agent = s.agent := rfl
@[simp] theorem State.toReset_program : s.toReset.program = s.program := rfl
@[simp] theorem State.toReset_out : s.toReset.out = s.out := rfl
@[simp] theorem State.toReset_freeCount : s.toReset.freeCount = s.freeCount := rfl

end

section
variable (s : State) (a : Agent) (p : List (List Request))

@[simp] theorem State.serving_queue : (s.serving a p).queue = s.queue := rfl
@[simp] theorem State.serving_active : (s.serving a p).active = s.active := rfl
@[simp] theorem State.serving_fault : (s.serving a p).fault = s.fault := rfl
@[simp] theorem State.serving_donePending : (s.serving a p).donePending = s.donePending := rfl
@[simp] theorem State.serving_emBusy : (s.serving a p).emBusy = s.emBusy := rfl
@[simp] theorem State.serving_emFrame : (s.serving a p).emFrame = s.emFrame := rfl
@[simp] theorem State.serving_initialised : (s.serving a p).initialised = s.initialised := rfl
@[simp] theorem State.serving_cfg : (s.serving a p).cfg = s.cfg := rfl
@[simp] theorem State.serving_log : (s.serving a p).log = s.log := rfl
@[simp] theorem State.serving_par : (s.serving a p).par = s.par := rfl
@[simp] theorem State.serving_agent : (s.serving a p).agent = a.context := rfl
@[simp] theorem State.serving_program : (s.serving a p).program = p := rfl
@[simp] theorem State.serving_out : (s.serving a p).out = Outputs.rest := rfl
@[simp] theorem State.serving_freeCount : (s.serving a p).freeCount = s.freeCount + 1 := rfl

end

section
variable (s : State)

@[simp] theorem State.idling_queue : s.idling.queue = s.queue := rfl
@[simp] theorem State.idling_active : s.idling.active = s.active := rfl
@[simp] theorem State.idling_fault : s.idling.fault = s.fault := rfl
@[simp] theorem State.idling_donePending : s.idling.donePending = s.donePending := rfl
@[simp] theorem State.idling_emBusy : s.idling.emBusy = s.emBusy := rfl
@[simp] theorem State.idling_emFrame : s.idling.emFrame = s.emFrame := rfl
@[simp] theorem State.idling_initialised : s.idling.initialised = s.initialised := rfl
@[simp] theorem State.idling_cfg : s.idling.cfg = s.cfg := rfl
@[simp] theorem State.idling_log : s.idling.log = s.log := rfl
@[simp] theorem State.idling_par : s.idling.par = s.par := rfl
@[simp] theorem State.idling_agent : s.idling.agent = s.agent := rfl
@[simp] theorem State.idling_program : s.idling.program = [] := rfl
@[simp] theorem State.idling_out : s.idling.out = Outputs.rest := rfl
@[simp] theorem State.idling_freeCount : s.idling.freeCount = s.freeCount := rfl

end

section
variable (s : State) (a : Context)

@[simp] theorem State.by_queue : (s.by a).queue = s.queue := rfl
@[simp] theorem State.by_active : (s.by a).active = s.active := rfl
@[simp] theorem State.by_fault : (s.by a).fault = s.fault := rfl
@[simp] theorem State.by_donePending : (s.by a).donePending = s.donePending := rfl
@[simp] theorem State.by_emBusy : (s.by a).emBusy = s.emBusy := rfl
@[simp] theorem State.by_emFrame : (s.by a).emFrame = s.emFrame := rfl
@[simp] theorem State.by_initialised : (s.by a).initialised = s.initialised := rfl
@[simp] theorem State.by_cfg : (s.by a).cfg = s.cfg := rfl
@[simp] theorem State.by_log : (s.by a).log = s.log := rfl
@[simp] theorem State.by_par : (s.by a).par = s.par := rfl
@[simp] theorem State.by_agent : (s.by a).agent = a := rfl
@[simp] theorem State.by_program : (s.by a).program = s.program := rfl
@[simp] theorem State.by_out : (s.by a).out = s.out := rfl
@[simp] theorem State.by_freeCount : (s.by a).freeCount = s.freeCount := rfl

end

end Sys2Proof.Machine
end

