-- ==== Sys2Proof/Laws/Ops.lean ====
section
/-! SUPPORT. For each shared operation one lemma that says once everything it can do. -/

namespace Sys2Proof.Machine

/-- `require` answers a next state exactly when every condition holds and what follows answers it. -/
theorem require_next {cs : List (Bool × Refusal)} {go : Result} {t : State} :
    require cs go = .next t ↔ (∀ c ∈ cs, c.1 = true) ∧ go = .next t := by
  induction cs with
  | nil => simp [require]
  | cons c cs ih =>
    obtain ⟨ok, why⟩ := c
    cases ok <;> simp [require, ih]

/-- With every condition true, `require` is what follows. -/
theorem require_of_all {cs : List (Bool × Refusal)} {go : Result} (h : ∀ c ∈ cs, c.1 = true) :
    require cs go = go := by
  induction cs with
  | nil => rfl
  | cons c cs ih =>
    obtain ⟨ok, why⟩ := c
    have hok : ok = true := h (ok, why) (by simp)
    subst hok
    simpa [require] using ih fun c hc => h c (by simp [hc])

/-- `require` faults only through what follows. -/
theorem require_fault {cs : List (Bool × Refusal)} {go : Result} {r : Fault}
    (h : require cs go = .fault r) : (∀ c ∈ cs, c.1 = true) ∧ go = .fault r := by
  induction cs with
  | nil => exact ⟨by simp, h⟩
  | cons c cs ih =>
    obtain ⟨ok, why⟩ := c
    cases ok with
    | false => cases h
    | true => simpa using ih h

/-- `settle` answers the operation's state, or the fault's entry. -/
theorem settle_next {s t : State} {a : Atomic} :
    settle s a = .next t ↔ a = .ok t ∨ (a = .error .raised ∧ t = s.raiseInvariantViolation) := by
  rcases a with e | u
  · cases e <;> simp [settle, eq_comm]
  · simp [settle]

/-- `START`: everything it can do. -/
theorem startEmitter_ok {f : Frame} {s t : State} :
    startEmitter f s = .ok t ↔ s.emBusy = false ∧ s.initialised = true ∧ t = s.started f := by
  unfold startEmitter
  cases s.emBusy <;> cases s.initialised <;> simp [eq_comm]

/-- `START` raises exactly when the emitter is busy. -/
theorem startEmitter_raised {f : Frame} {s : State} :
    startEmitter f s = .error .raised ↔ s.emBusy = true := by
  unfold startEmitter
  cases s.emBusy <;> cases s.initialised <;> simp

/-- `ENQ`: everything it can do. -/
theorem enqueue_ok {f : Frame} {s t : State} :
    enqueue f s = .ok t ↔
      (s.active = true ∧ s.queue ≠ [] ∧ t = ({ s with queue := s.queue ++ [f] }.record (.enq f)).acknowledge) ∨
      (s.active = false ∧ s.queue = [] ∧ s.emBusy = false ∧ s.initialised = true ∧
        t = (({ s with queue := [f], active := true }.record (.enq f)).started f).acknowledge) := by
  unfold enqueue
  cases ha : s.active <;> cases hq : s.queue
  · cases hb : s.emBusy <;> cases hi : s.initialised <;>
      simp_all [startEmitter, State.record]
    exact eq_comm
  · simp
  · simp
  · simp only [pushBack]
    simp
    exact eq_comm

/-- `ENQ` raises exactly when `active` and `queue` disagree, or the idle queue's emitter is busy (R153, R156). -/
theorem enqueue_raised {f : Frame} {s : State} :
    enqueue f s = .error .raised ↔
      (s.active = true ∧ s.queue = []) ∨ (s.active = false ∧ (s.queue ≠ [] ∨ s.emBusy = true)) := by
  unfold enqueue
  cases ha : s.active <;> cases hq : s.queue
  · cases hb : s.emBusy <;> cases hi : s.initialised <;> simp_all [startEmitter, State.record]
  · simp
  · simp
  · simp

/-- `ABORT`: everything it can do. -/
theorem abortBacklog_ok {s t : State} :
    abortBacklog s = .ok t ↔
      (∃ front rest, s.active = true ∧ s.queue = front :: rest ∧
        t = ({ s with queue := [front] }.record (.abort rest.length)).acknowledge) ∨
      (s.active = false ∧ s.queue = [] ∧ t = (s.record (.abort 0)).acknowledge) := by
  unfold abortBacklog
  cases ha : s.active <;> cases hq : s.queue <;> simp [eq_comm]

/-- `ABORT` raises exactly when `active` and `queue` disagree. -/
theorem abortBacklog_raised {s : State} :
    abortBacklog s = .error .raised ↔
      (s.active = true ∧ s.queue = []) ∨ (s.active = false ∧ s.queue ≠ []) := by
  unfold abortBacklog
  cases ha : s.active <;> cases hq : s.queue <;> simp

/-- `COMPLETE` with a notification pending: everything it can do. -/
theorem completeFront_ok {s t : State} :
    completeFront s = .ok t ↔
      (∃ front, s.active = true ∧ s.queue = [front] ∧
        t = { s with queue := [], donePending := false, active := false }.record (.complete front)) ∨
      (∃ front second rest, s.active = true ∧ s.queue = front :: second :: rest ∧ s.emBusy = false ∧
        s.initialised = true ∧
        t = ({ s with queue := second :: rest, donePending := false }.record (.complete front)).started second) := by
  unfold completeFront
  cases ha : s.active
  · simp
  · rcases hq : s.queue with _ | ⟨front, _ | ⟨second, rest⟩⟩
    · simp
    · simp
      exact eq_comm
    · cases hb : s.emBusy <;> cases hi : s.initialised <;>
        simp_all [startEmitter, State.record]
      exact eq_comm

/-- `COMPLETE` raises exactly when nothing is in flight, or the next train would start over one being emitted. -/
theorem completeFront_raised {s : State} :
    completeFront s = .error .raised ↔
      s.active = false ∨ s.queue = [] ∨ (s.queue.length ≠ 1 ∧ s.emBusy = true) := by
  unfold completeFront
  cases ha : s.active
  · simp
  · rcases hq : s.queue with _ | ⟨front, _ | ⟨second, rest⟩⟩
    · simp
    · simp
    · cases hb : s.emBusy <;> cases hi : s.initialised <;> simp_all [startEmitter, State.record]

end Sys2Proof.Machine
end

