-- ==== Sys2Proof/Laws/Exec.lean ====
section
/-! SUPPORT. What each operation can do, said once: the enabling conditions as propositions, one inversion lemma per kind
of operation, and `exec_next_cases` over all of them. -/

namespace Sys2Proof.Machine

/-! ### The enabling conditions -/

@[simp] theorem healthy_iff {s : State} : s.healthy = true ↔ s.fault = .none := by simp [State.healthy]

/-- Room in the queue (R151). -/
theorem hasRoom_iff {s : State} : s.hasRoom = true ↔ s.roomFor := by
  unfold State.hasRoom State.roomFor
  cases s.par.qdepth <;> simp

/-- Work pending, as a proposition (R11). -/
theorem workPending_false {s : State} : s.workPending = false ↔ s.quiet := by
  unfold State.workPending State.quiet
  cases s.active <;> cases s.emBusy <;> cases s.donePending <;> cases s.queue <;> simp

/-- A producer is being served (R205). -/
theorem servesProducer_iff {s : State} : s.servesProducer ↔ s.agentExists = true ∧ s.byProducer = true := by
  unfold State.servesProducer State.agentExists State.byProducer
  cases s.agent <;> simp

/-- A user of the pure functions is being served (R205). -/
theorem servesPureUser_iff {s : State} : s.servesPureUser ↔ s.agentExists = true ∧ s.byPureUser = true := by
  unfold State.servesPureUser State.agentExists State.byPureUser
  cases s.agent <;> simp

/-- Every agent but a producer exists. -/
theorem agentExists_of_ne {s : State} (h : ∀ p, s.agent ≠ .producer p) : s.agentExists = true := by
  unfold State.agentExists
  cases ha : s.agent <;> simp_all

/-! ### One inversion lemma per kind of operation -/

/-- The enqueuing operations: everything they can do (R153, R155). -/
theorem exec_enqueuing_next {i : Instr} {f : Frame} {s t : State} (hi : enqueuedFrame i = some f) :
    exec i s = .next t ↔
      s.servesProducer ∧ s.operational ∧ s.roomFor ∧
        (enqueue f s = .ok t ∨ (enqueue f s = .error .raised ∧ t = s.raiseInvariantViolation)) := by
  have key : ∀ g : Frame,
      require (allowed s s.byProducer ++ running s ++ [(s.hasRoom, .queueFull)]) (settle s (enqueue g s)) = .next t ↔
      s.servesProducer ∧ s.operational ∧ s.roomFor ∧
        (enqueue g s = .ok t ∨ (enqueue g s = .error .raised ∧ t = s.raiseInvariantViolation)) := by
    intro g
    rw [require_next, settle_next, servesProducer_iff, ← hasRoom_iff, State.operational, ← healthy_iff]
    simp [allowed, running, and_assoc]
  cases i with
  | send id ch ac n =>
    simp only [enqueuedFrame, Option.map_eq_some_iff] at hi
    obtain ⟨c, hc, rfl⟩ := hi
    simp only [exec, execSend, hc, sendCommand]
    exact key _
  | enq g => cases hi; exact key _
  | shock id ch n => cases hi; exact key _
  | vibrate id ch n => cases hi; exact key _
  | beep id ch n => cases hi; exact key _
  | light id ch n => cases hi; exact key _
  | nop => cases hi
  | abort => cases hi
  | complete => cases hi
  | emitDone => cases hi
  | start g => cases hi
  | reset => cases hi
  | encode id ch ac n => cases hi
  | decode bits => cases hi
  | toSignal g => cases hi
  | checksum b0 b1 b2 b3 => cases hi
  | ticks us => cases hi
  | init => cases hi

/-- `ABORT`: everything it can do (R160). -/
theorem exec_abort_next {s t : State} :
    exec .abort s = .next t ↔
      s.servesProducer ∧ s.par.hasAbort = true ∧ s.operational ∧
        (abortBacklog s = .ok t ∨ (abortBacklog s = .error .raised ∧ t = s.raiseInvariantViolation)) := by
  simp only [exec, execAbort]
  rw [require_next, settle_next, servesProducer_iff, State.operational, ← healthy_iff]
  simp [allowed, running, and_assoc]

/-- `COMPLETE`: everything it can do (R159, R161). -/
theorem exec_complete_next {s t : State} :
    exec .complete s = .next t ↔
      s.agent = .completion ∧ s.operational ∧
        ((s.donePending = false ∧ t = s) ∨
          (s.donePending = true ∧
            (completeFront s = .ok t ∨ (completeFront s = .error .raised ∧ t = s.raiseInvariantViolation)))) := by
  have ha : s.agent = .completion → s.agentExists = true := fun h => agentExists_of_ne (by simp [h])
  simp only [exec, execComplete]
  rw [require_next, State.operational, ← healthy_iff]
  cases hd : s.donePending
  · simp only [Bool.false_eq_true, if_false, false_and, or_false, Host.Outcome.next.injEq, true_and]
    rw [eq_comm (b := t)]
    simp [allowed, running, and_assoc]
    tauto
  · simp only [if_true, settle_next, true_and, Bool.true_eq_false, false_and, false_or]
    simp [allowed, running, and_assoc]
    tauto

/-- `EMIT_DONE`: everything it can do (R158). -/
theorem exec_emitDone_next {s t : State} :
    exec .emitDone s = .next t ↔ s.agent = .emitter ∧ s.fault = .none ∧ s.emBusy = true ∧ t = s.emissionDone := by
  have ha : s.agent = .emitter → s.agentExists = true := fun h => agentExists_of_ne (by simp [h])
  simp only [exec, execEmitDone]
  rw [require_next, ← healthy_iff]
  simp only [Host.Outcome.next.injEq, eq_comm (b := t)]
  simp [allowed, and_assoc]
  tauto

/-- `START`: everything it can do (R156). -/
theorem exec_start_next {f : Frame} {s t : State} :
    exec (.start f) s = .next t ↔
      s.agent = .inside ∧ s.fault = .none ∧
        ((s.emBusy = false ∧ s.initialised = true ∧ t = s.started f) ∨
          (s.emBusy = true ∧ t = s.raiseInvariantViolation)) := by
  have ha : s.agent = .inside → s.agentExists = true := fun h => agentExists_of_ne (by simp [h])
  simp only [exec, execStart]
  rw [require_next, settle_next, startEmitter_ok, startEmitter_raised, ← healthy_iff]
  simp [allowed, and_assoc]
  tauto

/-- `RESET`: everything it can do (R230). -/
theorem exec_reset_next {s t : State} :
    exec .reset s = .next t ↔ s.agent = .host ∧ (s.fault ≠ .none ∨ s.quiet) ∧ t = s.toReset := by
  have ha : s.agent = .host → s.agentExists = true := fun h => agentExists_of_ne (by simp [h])
  simp only [exec, execReset]
  rw [require_next, ← workPending_false]
  simp only [Host.Outcome.next.injEq, eq_comm (b := t)]
  simp [allowed, and_assoc, State.healthy]
  tauto

/-- `INIT`: everything it can do (R231). -/
theorem exec_init_next {s t : State} :
    exec .init s = .next t ↔
      s.agent = .host ∧ s.fault = .none ∧ s.initialised = false ∧ s.quiet ∧
        (loadedCfg s.par).wellFormed s.par.durW = true ∧ t = { s with cfg := loadedCfg s.par, initialised := true } := by
  have ha : s.agent = .host → s.agentExists = true := fun h => agentExists_of_ne (by simp [h])
  simp only [exec, execInit]
  rw [require_next, ← workPending_false, ← healthy_iff]
  simp only [Host.Outcome.next.injEq, eq_comm (b := t)]
  simp [allowed, and_assoc]
  tauto

/-- `NOP`: everything it can do (R162). -/
theorem exec_nop_next {s t : State} : exec .nop s = .next t ↔ s.servesProducer ∧ s.fault = .none ∧ t = s := by
  simp only [exec, execNop]
  rw [require_next, servesProducer_iff, ← healthy_iff, Host.Outcome.next.injEq, eq_comm (b := t)]
  simp [allowed, and_assoc]

/-- The pure functions write their result ports and nothing else (R8). -/
theorem exec_pure_next {i : Instr} {s t : State} (hi : pureOp i = true) (h : exec i s = .next t) :
    ∃ o, t = { s with out := o } ∧ o.pAck = s.out.pAck ∧ o.emStart = s.out.emStart ∧ o.emTrain = s.out.emTrain ∧
      ((∀ bits, i ≠ .decode bits) → o.decStatus = s.out.decStatus) := by
  cases i with
  | encode id ch ac n =>
    simp only [exec, execEncode, require_next] at h
    rcases hc : Command.ofPorts id ch ac n with _ | c <;> rw [hc] at h
    · cases h.2
    · cases h.2; exact ⟨_, rfl, rfl, rfl, rfl, fun _ => rfl⟩
  | decode bits =>
    simp only [exec, execDecode, require_next] at h
    rcases hc : decodeBits bits with e | c <;> rw [hc] at h <;> cases h.2 <;>
      exact ⟨_, rfl, rfl, rfl, rfl, fun h => absurd rfl (h bits)⟩
  | toSignal f =>
    simp only [exec, execToSignal, require_next] at h
    cases h.2; exact ⟨_, rfl, rfl, rfl, rfl, fun _ => rfl⟩
  | checksum b0 b1 b2 b3 =>
    simp only [exec, execChecksum, require_next] at h
    cases h.2; exact ⟨_, rfl, rfl, rfl, rfl, fun _ => rfl⟩
  | ticks us =>
    simp only [exec, execTicks, require_next] at h
    cases h.2; exact ⟨_, rfl, rfl, rfl, rfl, fun _ => rfl⟩
  | shock id ch n => cases hi
  | vibrate id ch n => cases hi
  | beep id ch n => cases hi
  | light id ch n => cases hi
  | nop => cases hi
  | send id ch ac n => cases hi
  | enq f => cases hi
  | abort => cases hi
  | complete => cases hi
  | emitDone => cases hi
  | start f => cases hi
  | reset => cases hi
  | init => cases hi

/-- What kind of operation an instruction is. -/
theorem instr_kinds (i : Instr) :
    (∃ f, enqueuedFrame i = some f) ∨ i = .abort ∨ i = .complete ∨ i = .emitDone ∨ (∃ f, i = .start f) ∨
      i = .reset ∨ i = .init ∨ i = .nop ∨ pureOp i = true ∨
      (∃ id ch ac n, i = .send id ch ac n ∧ Command.ofPorts id ch ac n = none) := by
  cases i with
  | send id ch ac n =>
    rcases hc : Command.ofPorts id ch ac n with _ | c
    · exact .inr (.inr (.inr (.inr (.inr (.inr (.inr (.inr (.inr ⟨id, ch, ac, n, rfl, hc⟩))))))))
    · exact .inl ⟨encodeFrame c, by simp [enqueuedFrame, hc]⟩
  | shock id ch n => exact .inl ⟨_, rfl⟩
  | vibrate id ch n => exact .inl ⟨_, rfl⟩
  | beep id ch n => exact .inl ⟨_, rfl⟩
  | light id ch n => exact .inl ⟨_, rfl⟩
  | enq f => exact .inl ⟨_, rfl⟩
  | nop => simp
  | abort => simp
  | complete => simp
  | emitDone => simp
  | start f => simp
  | reset => simp
  | init => simp
  | encode id ch ac n => simp [pureOp]
  | decode bits => simp [pureOp]
  | toSignal f => simp [pureOp]
  | checksum b0 b1 b2 b3 => simp [pureOp]
  | ticks us => simp [pureOp]

/-- `SEND` of operands that are no Command has no step (U1). -/
theorem exec_send_notACommand {id : DeviceId} {ch ac : Nibble} {n : Byte} (h : Command.ofPorts id ch ac n = none)
    (s : State) : exec (.send id ch ac n) s = .refused .notACommand := by
  simp [exec, execSend, h]

/-- Everything a next state of any operation can be. -/
theorem exec_next_cases {i : Instr} {s t : State} (h : exec i s = .next t) :
    ((∃ f, enqueuedFrame i = some f ∧ s.servesProducer ∧ s.operational ∧ s.roomFor ∧
        (enqueue f s = .ok t ∨ (enqueue f s = .error .raised ∧ t = s.raiseInvariantViolation))) ∨
      (i = .abort ∧ s.servesProducer ∧ s.operational ∧
        (abortBacklog s = .ok t ∨ (abortBacklog s = .error .raised ∧ t = s.raiseInvariantViolation))) ∨
      (i = .complete ∧ s.agent = .completion ∧ s.operational ∧
        ((s.donePending = false ∧ t = s) ∨
          (s.donePending = true ∧
            (completeFront s = .ok t ∨ (completeFront s = .error .raised ∧ t = s.raiseInvariantViolation))))) ∨
      (i = .emitDone ∧ s.agent = .emitter ∧ s.fault = .none ∧ s.emBusy = true ∧ t = s.emissionDone) ∨
      (∃ f, i = .start f ∧ s.agent = .inside ∧ s.fault = .none ∧
        ((s.emBusy = false ∧ s.initialised = true ∧ t = s.started f) ∨
          (s.emBusy = true ∧ t = s.raiseInvariantViolation)))) ∨
    ((i = .reset ∧ s.agent = .host ∧ (s.fault ≠ .none ∨ s.quiet) ∧ t = s.toReset) ∨
      (i = .init ∧ s.agent = .host ∧ s.fault = .none ∧ s.initialised = false ∧ s.quiet ∧
        (loadedCfg s.par).wellFormed s.par.durW = true ∧ t = { s with cfg := loadedCfg s.par, initialised := true }) ∨
      (i = .nop ∧ s.servesProducer ∧ s.fault = .none ∧ t = s) ∨
      (pureOp i = true ∧ ∃ o, t = { s with out := o } ∧ o.pAck = s.out.pAck ∧ o.emStart = s.out.emStart ∧
        o.emTrain = s.out.emTrain ∧ ((∀ bits, i ≠ .decode bits) → o.decStatus = s.out.decStatus))) := by
  rcases instr_kinds i with ⟨f, hf⟩ | rfl | rfl | rfl | ⟨f, rfl⟩ | rfl | rfl | rfl | hp | ⟨id, ch, ac, n, rfl, hn⟩
  · exact .inl (.inl ⟨f, hf, (exec_enqueuing_next hf).mp h⟩)
  · obtain ⟨h1, -, h2, h3⟩ := exec_abort_next.mp h
    exact .inl (.inr (.inl ⟨rfl, h1, h2, h3⟩))
  · exact .inl (.inr (.inr (.inl ⟨rfl, exec_complete_next.mp h⟩)))
  · exact .inl (.inr (.inr (.inr (.inl ⟨rfl, exec_emitDone_next.mp h⟩))))
  · exact .inl (.inr (.inr (.inr (.inr ⟨f, rfl, exec_start_next.mp h⟩))))
  · exact .inr (.inl ⟨rfl, exec_reset_next.mp h⟩)
  · exact .inr (.inr (.inl ⟨rfl, exec_init_next.mp h⟩))
  · exact .inr (.inr (.inr (.inl ⟨rfl, exec_nop_next.mp h⟩)))
  · exact .inr (.inr (.inr (.inr ⟨hp, exec_pure_next hp h⟩)))
  · rw [exec_send_notACommand hn] at h; cases h

end Sys2Proof.Machine
end

