-- ==== Sys2Proof/Laws/Arbiter.lean ====
section
/-! SUPPORT. The arbiter, the step and the runs: what is presented, what is served, what is left. -/

namespace Sys2Proof.Machine

@[simp] theorem presented_nil : presented [] = none := rfl
@[simp] theorem presented_empty (later : List (List Request)) : presented ([] :: later) = presented later := rfl
@[simp] theorem presented_cons (r : Request) (rs : List Request) (later : List (List Request)) :
    presented ((r :: rs) :: later) = some (r, rs, later) := rfl
@[simp] theorem waiting_nil (later : List (List Request)) : waiting [] later = later := rfl
@[simp] theorem waiting_cons (r : Request) (rs : List Request) (later : List (List Request)) :
    waiting (r :: rs) later = (r :: rs) :: later := rfl
@[simp] theorem arbitrate_alone (s : State) (r : Request) : arbitrate s r [] = (r, []) := rfl

/-- No request is served in the context `inside` (R205). -/
@[simp] theorem context_ne_inside (a : Agent) : a.context ≠ .inside := by cases a <;> simp [Agent.context]

/-- Serving a request: everything it can do. -/
theorem serve_next {s t : State} {r : Request} {p : List (List Request)} :
    serve s r p = .next t ↔ ∃ i, decode r.word = .ok i ∧ exec i (s.serving r.agent p) = .next t := by
  unfold serve
  cases decode r.word <;> simp

/-! ### Runs (R166) -/

@[simp] theorem leftOver_none (ports : List Request) : leftOver ports none = ports := rfl
@[simp] theorem leftOver_some (ports : List Request) (k : Nat) : leftOver ports (some k) = ports.eraseIdx k := rfl
@[simp] theorem Run.handled_zero (ρ : Run) : ρ.handled 0 = 0 := rfl
theorem Run.handled_succ (ρ : Run) (n : Nat) :
    ρ.handled (n + 1) =
      ρ.handled n +
        if ρ.performed n = some (.completion, .complete) ∧ (ρ.state n).donePending = true then 1 else 0 := rfl
theorem Run.performed_of_idle {ρ : Run} {n : Nat} (h : ρ.served n = none) : ρ.performed n = none := by
  simp [Run.performed, h]

/-- An instant that serves a request performs its operation, in the state `serving` gives. -/
theorem Run.Legal.performed {ρ : Run} (hl : ρ.Legal) {n k : Nat} (h : ρ.served n = some k) :
    ∃ r i p, r ∈ ρ.ports n ∧ ρ.performed n = some (r.agent, i) ∧ decode r.word = .ok i ∧
      exec i ((ρ.state n).serving r.agent p) = .next (ρ.state (n + 1)) := by
  obtain ⟨r, p, hr, -, hs⟩ := hl.serve n k h
  obtain ⟨i, hi, hx⟩ := serve_next.mp hs
  exact ⟨r, i, p, List.mem_of_getElem? hr, by simp [Run.performed, h, hr, hi], hi, hx⟩

/-! ### What is presented and served -/

/-- What is presented stands in the program, and so does everything that comes later. -/
theorem presented_mem {p later : List (List Request)} {r : Request} {rs : List Request}
    (h : presented p = some (r, rs, later)) : (r :: rs) ∈ p ∧ ∀ g ∈ later, g ∈ p := by
  induction p with
  | nil => cases h
  | cons g p ih =>
    cases g with
    | nil => exact ⟨List.mem_cons_of_mem _ (ih h).1, fun g hg => List.mem_cons_of_mem _ ((ih h).2 g hg)⟩
    | cons x xs => cases h; exact ⟨List.mem_cons_self, fun g hg => List.mem_cons_of_mem _ hg⟩

/-- A request is the first of its agent exactly if none before it is of the same agent (R57). -/
theorem firstOfAgent_iff {group : List Request} {k : Nat} {r : Request} (hk : group[k]? = some r) :
    firstOfAgent group k = true ↔ ∀ j u, j < k → group[j]? = some u → u.agent ≠ r.agent := by
  simp only [firstOfAgent, hk, Option.map_some, List.all_eq_true, decide_eq_true_eq, ne_eq, Option.some.injEq]
  constructor
  · intro h j u hj hu
    exact h u (List.mem_of_getElem? (by rw [List.getElem?_take_of_lt hj, hu]))
  · intro h u hu
    obtain ⟨j, hj⟩ := List.mem_iff_getElem?.mp hu
    have hlt : j < k := by
      by_contra hc
      simp [hc] at hj
    exact h j u hlt (by rwa [List.getElem?_take_of_lt hlt] at hj)

/-- The positions the arbiter may pick from are positions of the group, each the first of its agent. -/
theorem candidates_first {s : State} {group : List Request} {k : Nat} (h : k ∈ candidates s group) :
    k < group.length ∧ firstOfAgent group k = true := by
  unfold candidates at h
  dsimp only at h
  have key : k ∈ (List.range group.length).filter (firstOfAgent group) := by
    split at h
    · exact h
    · exact (List.mem_filter.mp h).1
  simpa using List.mem_filter.mp key

/-- There is always a position to pick. -/
theorem candidates_ne_nil {s : State} {group : List Request} (h : group ≠ []) : candidates s group ≠ [] := by
  have h0 : 0 ∈ (List.range group.length).filter (firstOfAgent group) :=
    List.mem_filter.mpr ⟨by simpa using List.length_pos_of_ne_nil h, by simp [firstOfAgent]⟩
  unfold candidates
  dsimp only
  split
  · exact List.ne_nil_of_mem h0
  · simp_all

/-- With a first request of an agent enabled, only enabled ones are candidates. -/
theorem candidates_enabled {s : State} {group : List Request} {r : Request} {j : Nat} (hr : group[j]? = some r)
    (hf : firstOfAgent group j = true) (he : enabledNow s r = true) {k : Nat} (h : k ∈ candidates s group) :
    ∃ u, group[k]? = some u ∧ enabledNow s u = true := by
  have hj : j ∈ ((List.range group.length).filter (firstOfAgent group)).filter (enabledAt s group) :=
    List.mem_filter.mpr ⟨List.mem_filter.mpr ⟨by simpa using (List.getElem?_eq_some_iff.mp hr).1, hf⟩,
      by simp [enabledAt, hr, he]⟩
  unfold candidates at h
  dsimp only at h
  rw [if_neg (by simpa using List.ne_nil_of_mem hj)] at h
  have hp := (List.mem_filter.mp h).2
  unfold enabledAt at hp
  cases hk : group[k]? with
  | none => simp [hk] at hp
  | some u => exact ⟨u, rfl, by simpa [hk] using hp⟩

/-- The arbiter serves one request of the group and leaves the others: everything it can do. -/
theorem arbitrate_spec (s : State) (r q : Request) (qs : List Request) :
    ∃ k ∈ candidates s (r :: q :: qs), (r :: q :: qs)[k]? = some (arbitrate s r (q :: qs)).1 ∧
      (arbitrate s r (q :: qs)).2 = (r :: q :: qs).eraseIdx k := by
  have hne := candidates_ne_nil (s := s) (group := r :: q :: qs) (by simp)
  have hpos : 0 < (candidates s (r :: q :: qs)).length := List.length_pos_of_ne_nil hne
  have hlt := Nat.mod_lt (Config.arbiterChoice s.freeCount) hpos
  have hmem := List.getElem_mem hlt
  refine ⟨_, hmem, ?_, ?_⟩
  · have hk := (candidates_first hmem).1
    simp only [arbitrate, List.getD_eq_getElem?_getD, List.getElem?_eq_getElem hlt, Option.getD_some,
      List.getElem?_eq_getElem hk]
  · simp only [arbitrate, List.getD_eq_getElem?_getD, List.getElem?_eq_getElem hlt, Option.getD_some]

/-- A step that answers a next state is idle, or serves one request of the group that is presented, and leaves no
request that was not there. -/
theorem step_next_cases {s t : State} (h : step s = .next t) :
    t = s.idling ∨
    ∃ r i p, (∃ g ∈ s.program, r ∈ g) ∧ (∀ g ∈ p, ∀ u ∈ g, ∃ g' ∈ s.program, u ∈ g') ∧
      decode r.word = .ok i ∧ exec i (s.serving r.agent p) = .next t := by
  unfold step at h
  split at h
  · left; cases h; rfl
  · rename_i r rs later hp
    right
    obtain ⟨hg, hl⟩ := presented_mem hp
    have hs : (∃ g ∈ s.program, (arbitrate s r rs).1 ∈ g) ∧
        ∀ g ∈ waiting (arbitrate s r rs).2 later, ∀ u ∈ g, ∃ g' ∈ s.program, u ∈ g' := by
      cases rs with
      | nil => exact ⟨⟨_, hg, by simp⟩, fun g hg' u hu => ⟨g, hl g (by simpa using hg'), hu⟩⟩
      | cons q qs =>
        obtain ⟨k, -, h1, h2⟩ := arbitrate_spec s r q qs
        refine ⟨⟨_, hg, List.mem_of_getElem? h1⟩, fun g hg' u hu => ?_⟩
        rw [h2] at hg'
        unfold waiting at hg'
        split at hg'
        · exact ⟨g, hl g hg', hu⟩
        · rcases List.mem_cons.mp hg' with rfl | hg'
          · exact ⟨_, hg, List.mem_of_mem_eraseIdx hu⟩
          · exact ⟨g, hl g hg', hu⟩
    obtain ⟨i, hi, hx⟩ := serve_next.mp h
    exact ⟨_, i, _, hs.1, hs.2, hi, hx⟩

/-- The requests still to come do not decide whether a guarded operation has a step. -/
theorem require_program {cs : List (Bool × Refusal)} {go go' : Result} {t t' : State} (h : require cs go = .next t)
    (hg : go = .next t → go' = .next t') : require cs go' = .next t' := by
  rw [require_next] at h ⊢
  exact ⟨h.1, hg h.2⟩

/-- No operation reads the requests still to come. -/
theorem exec_program {i : Instr} {s t : State} (p : List (List Request)) (h : exec i s = .next t) :
    exec i { s with program := p } = .next { t with program := p } := by
  have enq : ∀ f u, settle s (enqueue f s) = .next u →
      settle { s with program := p } (enqueue f { s with program := p }) = .next { u with program := p } := by
    intro f u h
    rw [settle_next] at h ⊢
    rcases h with h | ⟨h, rfl⟩
    · left
      rw [enqueue_ok] at h ⊢
      rcases h with ⟨a, b, rfl⟩ | ⟨a, b, c, d, rfl⟩
      · exact .inl ⟨a, b, rfl⟩
      · exact .inr ⟨a, b, c, d, rfl⟩
    · right
      rw [enqueue_raised] at h ⊢
      exact ⟨h, rfl⟩
  have snd : ∀ c u, sendCommand c s = .next u → sendCommand c { s with program := p } = .next { u with program := p } :=
    fun c u h => require_program h (enq _ u)
  cases i with
  | shock id ch n => exact snd _ _ h
  | vibrate id ch n => exact snd _ _ h
  | beep id ch n => exact snd _ _ h
  | light id ch n => exact snd _ _ h
  | send id ch ac n =>
    simp only [exec, execSend] at h ⊢
    split at h
    · exact snd _ _ h
    · cases h
  | enq f => exact require_program h (enq f t)
  | nop => exact require_program h (fun h => by cases h; rfl)
  | abort =>
    refine require_program h (fun h' => ?_)
    clear h
    rw [settle_next] at h' ⊢
    rename' h' => h
    rcases h with h | ⟨h, rfl⟩
    · left
      rw [abortBacklog_ok] at h ⊢
      rcases h with ⟨a, b, c, d, rfl⟩ | ⟨c, d, rfl⟩
      · exact .inl ⟨a, b, c, d, rfl⟩
      · exact .inr ⟨c, d, rfl⟩
    · right
      rw [abortBacklog_raised] at h ⊢
      exact ⟨h, rfl⟩
  | complete =>
    rw [exec_complete_next] at h ⊢
    obtain ⟨h1, h2, ⟨h3, rfl⟩ | ⟨h3, h | ⟨h, rfl⟩⟩⟩ := h
    · exact ⟨h1, h2, .inl ⟨h3, rfl⟩⟩
    · refine ⟨h1, h2, .inr ⟨h3, .inl ?_⟩⟩
      rw [completeFront_ok] at h ⊢
      rcases h with ⟨a, b, c, rfl⟩ | ⟨a, b, c, d, e, f, g, rfl⟩
      · exact .inl ⟨a, b, c, rfl⟩
      · exact .inr ⟨a, b, c, d, e, f, g, rfl⟩
    · refine ⟨h1, h2, .inr ⟨h3, .inr ⟨?_, rfl⟩⟩⟩
      rw [completeFront_raised] at h ⊢
      exact h
  | emitDone => exact require_program h (fun h => by cases h; rfl)
  | start f =>
    rw [exec_start_next] at h ⊢
    obtain ⟨h1, h2, ⟨h3, h4, rfl⟩ | ⟨h3, rfl⟩⟩ := h
    · exact ⟨h1, h2, .inl ⟨h3, h4, rfl⟩⟩
    · exact ⟨h1, h2, .inr ⟨h3, rfl⟩⟩
  | reset => exact require_program h (fun h => by cases h; rfl)
  | encode id ch ac n =>
    refine require_program h (fun h => ?_)
    split at h
    · cases h; rfl
    · cases h
  | decode bits =>
    refine require_program h (fun h => ?_)
    split at h
    · cases h; rfl
    · cases h; rfl
  | toSignal f => exact require_program h (fun h => by cases h; rfl)
  | checksum b0 b1 b2 b3 => exact require_program h (fun h => by cases h; rfl)
  | ticks us => exact require_program h (fun h => by cases h; rfl)
  | init => exact require_program h (fun h => by cases h; rfl)

end Sys2Proof.Machine
end

