-- ==== Sys2Proof/Laws/History.lean ====
section
/-! SUPPORT. The histories read off the event log: what one more event does to each. -/

namespace Sys2Proof.Machine

section
variable (log : List Event)

@[simp] theorem startedFrames_nil : startedFrames [] = [] := rfl
@[simp] theorem startedFrames_enq (f : Frame) : startedFrames (log ++ [.enq f]) = startedFrames log := by
  simp [startedFrames]
@[simp] theorem startedFrames_start (f : Frame) : startedFrames (log ++ [.start f]) = startedFrames log ++ [f] := by
  simp [startedFrames]
@[simp] theorem startedFrames_done (f : Frame) : startedFrames (log ++ [.done f]) = startedFrames log := by
  simp [startedFrames]
@[simp] theorem startedFrames_complete (f : Frame) : startedFrames (log ++ [.complete f]) = startedFrames log := by
  simp [startedFrames]
@[simp] theorem startedFrames_abort (n : Nat) : startedFrames (log ++ [.abort n]) = startedFrames log := by
  simp [startedFrames]
@[simp] theorem startedFrames_fault : startedFrames (log ++ [.fault]) = startedFrames log := by
  simp [startedFrames]

@[simp] theorem completedFrames_nil : completedFrames [] = [] := rfl
@[simp] theorem completedFrames_enq (f : Frame) : completedFrames (log ++ [.enq f]) = completedFrames log := by
  simp [completedFrames]
@[simp] theorem completedFrames_start (f : Frame) : completedFrames (log ++ [.start f]) = completedFrames log := by
  simp [completedFrames]
@[simp] theorem completedFrames_done (f : Frame) : completedFrames (log ++ [.done f]) = completedFrames log := by
  simp [completedFrames]
@[simp] theorem completedFrames_complete (f : Frame) : completedFrames (log ++ [.complete f]) = completedFrames log ++ [f] := by
  simp [completedFrames]
@[simp] theorem completedFrames_abort (n : Nat) : completedFrames (log ++ [.abort n]) = completedFrames log := by
  simp [completedFrames]
@[simp] theorem completedFrames_fault : completedFrames (log ++ [.fault]) = completedFrames log := by
  simp [completedFrames]

@[simp] theorem emittedFrames_nil : emittedFrames [] = [] := rfl
@[simp] theorem emittedFrames_enq (f : Frame) : emittedFrames (log ++ [.enq f]) = emittedFrames log := by
  simp [emittedFrames]
@[simp] theorem emittedFrames_start (f : Frame) : emittedFrames (log ++ [.start f]) = emittedFrames log := by
  simp [emittedFrames]
@[simp] theorem emittedFrames_done (f : Frame) : emittedFrames (log ++ [.done f]) = emittedFrames log ++ [f] := by
  simp [emittedFrames]
@[simp] theorem emittedFrames_complete (f : Frame) : emittedFrames (log ++ [.complete f]) = emittedFrames log := by
  simp [emittedFrames]
@[simp] theorem emittedFrames_abort (n : Nat) : emittedFrames (log ++ [.abort n]) = emittedFrames log := by
  simp [emittedFrames]
@[simp] theorem emittedFrames_fault : emittedFrames (log ++ [.fault]) = emittedFrames log := by
  simp [emittedFrames]

@[simp] theorem survivingFrames_nil : survivingFrames [] = [] := rfl
@[simp] theorem survivingFrames_enq (f : Frame) :
    survivingFrames (log ++ [.enq f]) = survivingFrames log ++ [f] := by
  simp [survivingFrames, surviveEvent]
@[simp] theorem survivingFrames_start (f : Frame) :
    survivingFrames (log ++ [.start f]) = survivingFrames log := by
  simp [survivingFrames, surviveEvent]
@[simp] theorem survivingFrames_done (f : Frame) :
    survivingFrames (log ++ [.done f]) = survivingFrames log := by
  simp [survivingFrames, surviveEvent]
@[simp] theorem survivingFrames_complete (f : Frame) :
    survivingFrames (log ++ [.complete f]) = survivingFrames log := by
  simp [survivingFrames, surviveEvent]
@[simp] theorem survivingFrames_abort (n : Nat) :
    survivingFrames (log ++ [.abort n]) = (survivingFrames log).take ((survivingFrames log).length - n) := by
  simp [survivingFrames, surviveEvent]
@[simp] theorem survivingFrames_fault :
    survivingFrames (log ++ [.fault]) = survivingFrames log := by
  simp [survivingFrames, surviveEvent]

end

end Sys2Proof.Machine
end

