-- ==== Sys2Proof/Laws/PerInstr.lean ====
section
/-! SUPPORT. Statements made for each instruction. `Encoding`: the word of an instruction carries the format and the
opcode that its row of `spec/opcode_table.json` gives it. -/

namespace Sys2Proof.Laws

open Sys2Proof

/-- The format of a row (`true` is `FRAME43`) and its opcode: the action nibble `match[22:19]` of a `FRAME43` row
(R76), the number `opn` of an `OP` row (R82). -/
def tableKey : Instr → Bool × Nat
  | .shock _ _ _ => (true, 0x00000080000 / 2 ^ 19)
  | .vibrate _ _ _ => (true, 0x00000100000 / 2 ^ 19)
  | .beep _ _ _ => (true, 0x00000180000 / 2 ^ 19)
  | .light _ _ _ => (true, 0x00000200000 / 2 ^ 19)
  | .nop => (false, 0x0)
  | .send _ _ _ _ => (false, 0x1)
  | .enq _ => (false, 0x2)
  | .abort => (false, 0x3)
  | .complete => (false, 0x4)
  | .emitDone => (false, 0x5)
  | .start _ => (false, 0x6)
  | .reset => (false, 0x7)
  | .encode _ _ _ _ => (false, 0x8)
  | .decode _ => (false, 0x9)
  | .toSignal _ => (false, 0xA)
  | .checksum _ _ _ _ => (false, 0xB)
  | .ticks _ => (false, 0xC)
  | .init => (false, 0xD)

/-- The format and opcode a port word carries. -/
def wordKey : PortWord → Option (Bool × Nat)
  | .wire w => some (true, (w.extractLsb' 19 4).toNat)
  | .pOp opn _ _ => some (false, opn.toNat)
  | .label opn _ => some (false, opn.toNat)
  | .tooWide _ => none

/-- The action nibble of an encoded frame (R70, R74). -/
theorem encodeFrame_action (c : Command) : (encodeFrame c).extractLsb' 19 4 = c.action.nibble := by
  have h := (encodeFrame_parts c).1
  have : (encodeFrame c).extractLsb' 19 4 = ((encodeFrame c).extractLsb' 11 32).extractLsb' 8 4 := by
    ext i hi
    simp only [BitVec.getElem_extractLsb', BitVec.getLsbD_extractLsb']
    simp [show 8 + i < 32 by omega, ← Nat.add_assoc]
  rw [this, h]
  exact portAction_pack _ _ _ _

/-- The statement of the family. -/
def Encoding.Statement (i : Instr) : Prop := wordKey (encode i) = some (tableKey i)

theorem Encoding.shock (id : DeviceId) (ch : Channel) (n : Byte) : Encoding.Statement (.shock id ch n) := by
  simp [Encoding.Statement, wordKey, tableKey, encode, wireFrame, encodeFrame_action, Action.nibble]

theorem Encoding.vibrate (id : DeviceId) (ch : Channel) (n : Byte) : Encoding.Statement (.vibrate id ch n) := by
  simp [Encoding.Statement, wordKey, tableKey, encode, wireFrame, encodeFrame_action, Action.nibble]

theorem Encoding.beep (id : DeviceId) (ch : Channel) (n : Byte) : Encoding.Statement (.beep id ch n) := by
  simp [Encoding.Statement, wordKey, tableKey, encode, wireFrame, encodeFrame_action, Action.nibble]

theorem Encoding.light (id : DeviceId) (ch : Channel) (n : Byte) : Encoding.Statement (.light id ch n) := by
  simp [Encoding.Statement, wordKey, tableKey, encode, wireFrame, encodeFrame_action, Action.nibble]

theorem Encoding.nop : Encoding.Statement .nop := rfl

theorem Encoding.send (id : DeviceId) (ch ac : Nibble) (n : Byte) : Encoding.Statement (.send id ch ac n) := rfl

theorem Encoding.enq (f : Frame) : Encoding.Statement (.enq f) := rfl

theorem Encoding.abort : Encoding.Statement .abort := rfl

theorem Encoding.complete : Encoding.Statement .complete := rfl

theorem Encoding.emitDone : Encoding.Statement .emitDone := rfl

theorem Encoding.start (f : Frame) : Encoding.Statement (.start f) := rfl

theorem Encoding.reset : Encoding.Statement .reset := rfl

theorem Encoding.encode (id : DeviceId) (ch ac : Nibble) (n : Byte) : Encoding.Statement (.encode id ch ac n) := rfl

theorem Encoding.decode (bits : BitSeq) : Encoding.Statement (.decode bits) := rfl

theorem Encoding.toSignal (f : Frame) : Encoding.Statement (.toSignal f) := rfl

theorem Encoding.checksum (b0 b1 b2 b3 : Byte) : Encoding.Statement (.checksum b0 b1 b2 b3) := rfl

theorem Encoding.ticks (us : Nat) : Encoding.Statement (.ticks us) := rfl

theorem Encoding.init : Encoding.Statement .init := rfl

end Sys2Proof.Laws
end

