-- ==== Sys2Proof/Laws/Pulse.lean ====
section
/-! SUPPORT. The small lemmas of PulseMap: ticks, symbols, trains and their waveforms. -/

namespace Sys2Proof.Machine

/-- `TICKS` is the nearest count, a tie going up (R133). -/
theorem ticks_eq_iff {hz us n : Nat} :
    ticks hz us = n ↔ 2 * n * 1000000 ≤ 2 * (us * hz) + 1000000 ∧ 2 * (us * hz) < (2 * n + 1) * 1000000 := by
  unfold ticks
  generalize us * hz = x
  omega

/-- One tick per microsecond is exact (R133). -/
@[simp] theorem ticks_megahertz (us : Nat) : ticks 1000000 us = us := by
  unfold ticks
  omega

@[simp] theorem length_toSignal (c : Cfg) (f : Frame) : (toSignal c f).length = 44 := by simp [toSignal]

@[simp] theorem tail_toSignal (c : Cfg) (f : Frame) : (toSignal c f).tail = (frameBits f).map (symbol c) := rfl

@[simp] theorem getElem?_toSignal_zero (c : Cfg) (f : Frame) : (toSignal c f)[0]? = some (syncSymbol c) := rfl

/-- `sym(k) = SYMBOL(f(k-1))` (R136). -/
theorem getElem?_toSignal_succ (c : Cfg) (f : Frame) (k : Nat) (h : k < 43) :
    (toSignal c f)[k + 1]? = some (symbol c (frameBit f k)) := by
  rw [toSignal, List.getElem?_cons_succ, List.getElem?_map, getElem?_frameBits, if_pos h, Option.map_some]

@[simp] theorem wave_nil : wave [] = [] := rfl
@[simp] theorem wave_cons (y : Symbol) (t : PulseTrain) :
    wave (y :: t) = (true, y.high) :: (false, y.low) :: wave t := by simp [wave]
@[simp] theorem trainTicks_nil : trainTicks [] = 0 := rfl
@[simp] theorem trainTicks_cons (y : Symbol) (t : PulseTrain) :
    trainTicks (y :: t) = y.high + y.low + trainTicks t := by simp [trainTicks]

/-- Two entries for each symbol (R165). -/
@[simp] theorem length_wave (t : PulseTrain) : (wave t).length = 2 * t.length := by
  induction t with
  | nil => rfl
  | cons y t ih => simp [ih]; omega

/-- Where a symbol's entries stand in the waveform (R165). -/
theorem getElem?_wave (t : PulseTrain) (k : Nat) :
    (wave t)[2 * k]? = (t[k]?.map fun y => (true, y.high)) ∧
    (wave t)[2 * k + 1]? = (t[k]?.map fun y => (false, y.low)) := by
  induction t generalizing k with
  | nil => simp
  | cons y t ih =>
    cases k with
    | zero => simp
    | succ k => simpa [Nat.mul_add] using ih k

/-- The length of the symbols of a bit sequence (R137). -/
theorem trainTicks_map_symbol (c : Cfg) (s : BitSeq) :
    trainTicks (s.map (symbol c)) = s.count true * (c.oneH + c.oneL) + s.count false * (c.zeroH + c.zeroL) := by
  induction s with
  | nil => simp
  | cons b s ih => cases b <;> simp [ih, symbol] <;> ring

/-- Every bit of a frame is a one or a zero. -/
theorem count_frameBits (f : Frame) : (frameBits f).count true + (frameBits f).count false = 43 := by
  have h := List.count_not_add_count (frameBits f) true
  simp only [Bool.not_true, length_frameBits] at h
  omega

/-- A well-formed configuration, as propositions (R35). -/
theorem wellFormed_iff {w : Nat} {c : Cfg} :
    c.wellFormed w = true ↔
      ((1 ≤ c.syncH ∧ c.syncH ≤ 2 ^ w - 1) ∧ (1 ≤ c.syncL ∧ c.syncL ≤ 2 ^ w - 1)) ∧
      ((1 ≤ c.oneH ∧ c.oneH ≤ 2 ^ w - 1) ∧ (1 ≤ c.oneL ∧ c.oneL ≤ 2 ^ w - 1)) ∧
      ((1 ≤ c.zeroH ∧ c.zeroH ≤ 2 ^ w - 1) ∧ (1 ≤ c.zeroL ∧ c.zeroL ≤ 2 ^ w - 1)) ∧
      c.zeroH < c.oneH ∧ c.oneH < c.syncH ∧ c.oneL < c.zeroL := by
  simp only [Cfg.wellFormed, representable, Bool.and_eq_true, decide_eq_true_eq]
  tauto

end Sys2Proof.Machine
end

