-- ==== Sys2Proof/Tests/Slice0.lean ====
section
/-! SUPPORT. Tests. Expected values come from `spec/95_test_vectors.md` and the worked examples of the rules named, never
from the model. The second part shows, for every obligation with hypotheses, states and operands that meet them. -/

namespace Sys2Proof.Tests

open Sys2Proof Sys2Proof.Machine

/-! ### Helpers -/

/-- The outcome is a next state of which `p` holds. -/
def nextHolds (r : Result) (p : State → Bool) : Bool :=
  match r with
  | .next t => p t
  | .fault _ => false
  | .refused _ => false

/-- The outcome is this refusal. -/
def refusedWith (r : Result) (why : Refusal) : Bool :=
  match r with
  | .refused w => decide (w = why)
  | .next _ => false
  | .fault _ => false

/-- The outcome is this fault. -/
def faultedWith (r : Result) (why : Fault) : Bool :=
  match r with
  | .fault w => decide (w = why)
  | .next _ => false
  | .refused _ => false

/-- Frames A, B, C and V of the programs of section 4. -/
def fA : Frame := 0x08888085168
def fB : Frame := 0x1111090A350
def fC : Frame := 0x1999918F538
def fV : Frame := 0x165F01190F0

/-- After `RESET` and `INIT` with the defaults, an operation performed in the context `a`. -/
def ready (a : Context) : State :=
  { State.reset with initialised := true, cfg := loadedCfg Params.default, agent := a }

/-- A in flight and `rest` behind it. -/
def sending (rest : List Frame) (a : Context) : State :=
  { ready a with
    queue := fA :: rest, active := true, emBusy := true, emFrame := fA,
    log := [.enq fA, .start fA] ++ rest.map Event.enq }

/-- A emitted, its notification pending, and `rest` behind it. -/
def pending (rest : List Frame) (a : Context) : State :=
  { sending rest a with
    emBusy := false, donePending := true, log := [.enq fA, .start fA] ++ rest.map Event.enq ++ [.done fA] }

/-- The halted state: `x1` after its fault. -/
def halted (a : Context) : State := { ready a with fault := .invariantViolation, log := [.fault] }

/-- The spec's vectors write a state as `(queue, active, done_pending, em_busy)`, with the events appended. -/
def is (s : State) (queue : List Frame) (active donePending emBusy : Bool) (events : List Event) (t : State) : Bool :=
  decide (t.queue = queue) && (t.active == active) && (t.donePending == donePending) && (t.emBusy == emBusy) &&
  decide (t.log = s.log ++ events) && decide (t.fault = .none)

/-! ### Well-formedness -/

/-- R21, R22: channel 3, action 0 and action 5 are refused, channel 2 with action 4 is not. -/
theorem test_wf_send :
    (Instr.send 0x2CBE 3 2 50).wellFormed = false ∧ (Instr.send 0x2CBE 0 0 50).wellFormed = false ∧
    (Instr.send 0x2CBE 0 5 50).wellFormed = false ∧ (Instr.send 0x2CBE 2 4 50).wellFormed = true := by decide

theorem test_wf_encode :
    (Instr.encode 0x2CBE 15 2 50).wellFormed = false ∧ (Instr.encode 0x2CBE 2 0 50).wellFormed = false ∧
    (Instr.encode 0x2CBE 2 15 50).wellFormed = false ∧ (Instr.encode 0x2CBE 0 1 50).wellFormed = true := by decide

/-- R106, vector d16: 39 bits are too few. -/
theorem test_wf_decode :
    (Instr.decode (be 39 0)).wellFormed = false ∧ (Instr.decode (be 40 0)).wellFormed = true := by decide

/-! ### Decoding: every constructor, from a word written out from its encoding -/

/-- Vectors D and A of section 3.1. -/
theorem test_decode_shock :
    decode (.wire 0b1010101111001101001000010011001011001011000) = .ok (.shock 0xABCD .two 50) ∧
    decode (.wire 0b0000000000000000000000010000000000000001000) = .ok (.shock 0 .zero 0) := by decide

/-- Vectors KV and F. -/
theorem test_decode_vibrate :
    decode (.wire 0b0010110010111110000000100011001000011110000) = .ok (.vibrate 0x2CBE .zero 50) ∧
    decode (.wire 0b1111111111111111000000100000000000000000000) = .ok (.vibrate 0xFFFF .zero 0) := by decide

/-- Vector C. -/
theorem test_decode_beep :
    decode (.wire 0b0001001000110100000100110110001110111100000) = .ok (.beep 0x1234 .one 99) := by decide

/-- Vectors B and G. -/
theorem test_decode_light :
    decode (.wire 0b1111111111111111001001001111111100100001000) = .ok (.light 0xFFFF .two 255) ∧
    decode (.wire 0b1000000000000000000101000111111100010011000) = .ok (.light 0x8000 .one 127) := by decide

/-- R80: a wrong checksum, channel 3, action 0 and action 5 present no wire action. -/
theorem test_decode_bad_frames :
    decode (.wire 0b0010110010111110000000100011001000011111000) = .error (.badFrame .checksumMismatch) ∧
    decode (.wire 0b0010110010111110001100100011001001001110000) = .error (.badFrame .invalidChannel) ∧
    decode (.wire 0b0010110010111110000000000011001000011100000) = .error (.badFrame .invalidAction) ∧
    decode (.wire 0b0010110010111110000001010011001000100001000) = .error (.badFrame .invalidAction) := by decide

/-- R77: a terminator that is not zero is not examined (vector d14). -/
theorem test_decode_terminator :
    decode (.wire 0b0010110010111110000000100011001000011110111) = .ok (.vibrate 0x2CBE .zero 50) := by decide

theorem test_decode_nop : decode (.pOp 0b0000 0 0) = .ok .nop := by decide
theorem test_decode_send :
    decode (.pOp 0b0001 0b00101100101111100001001000110010 0) =
      .ok (.send 0x2CBE 1 2 50) := by decide
theorem test_decode_enq :
    decode (.pOp 0b0010 0 0b0010110010111110000000100011001000011110000) =
      .ok (.enq 0x165F01190F0) := by decide
theorem test_decode_abort : decode (.pOp 0b0011 0 0) = .ok .abort := by decide
theorem test_decode_complete : decode (.label 0b0100 .zero) = .ok .complete := by decide
theorem test_decode_emitDone : decode (.label 0b0101 .zero) = .ok .emitDone := by decide
theorem test_decode_start :
    decode (.label 0b0110 { OperandPorts.zero with frame := 0b1 }) = .ok (.start 1) := by decide
theorem test_decode_reset : decode (.label 0b0111 .zero) = .ok .reset := by decide
theorem test_decode_encode :
    decode (.label 0b1000 { OperandPorts.zero with cmd := 0b10101011110011010010000100110010 }) =
      .ok (.encode 0xABCD 2 1 50) := by decide
theorem test_decode_decode :
    decode (.label 0b1001 { OperandPorts.zero with bits := be 40 0x2CBE02321E }) = .ok (.decode (be 40 0x2CBE02321E)) := by
  decide
theorem test_decode_toSignal :
    decode (.label 0b1010 { OperandPorts.zero with frame := 0b11 }) = .ok (.toSignal 3) := by decide
theorem test_decode_checksum :
    decode (.label 0b1011 { OperandPorts.zero with cmd := 0b00101100101111100000001000110010 }) =
      .ok (.checksum 0x2C 0xBE 0x02 0x32) := by decide
theorem test_decode_ticks : decode (.label 0b1100 { OperandPorts.zero with us := 1400 }) = .ok (.ticks 1400) := by decide
theorem test_decode_init : decode (.label 0b1101 .zero) = .ok .init := by decide

/-- R83: `0xE` and `0xF` name nothing, on `p_op` or as a label. -/
theorem test_decode_reserved :
    decode (.pOp 0b1110 0 0) = .error .reservedOpn ∧ decode (.pOp 0b1111 0 0) = .error .reservedOpn ∧
    decode (.label 0b1110 .zero) = .error .reservedOpn ∧ decode (.label 0b1111 .zero) = .error .reservedOpn := by decide

/-- R83: `0x4` to `0xD` on `p_op` present no producer operation, the pure functions `0x8` to `0xB` among them; R82: the
producer operations are no labels. -/
theorem test_decode_pOp_labels :
    (∀ n ∈ [0x4, 0x5, 0x6, 0x7, 0x8, 0x9, 0xA, 0xB, 0xC, 0xD],
      decode (.pOp (BitVec.ofNat 4 n) 0x2CBE0232 0) = .error .notAProducerOperation) ∧
    ∀ n ∈ [0x0, 0x1, 0x2, 0x3], decode (.label (BitVec.ofNat 4 n) .zero) = .error .producerOperation := by decide

/-- The opcode-table check of section 3.1: each vector matches the row of its action and no other. -/
theorem test_table_match :
    (fV &&& 0x780000) = 0x100000 ∧ (0x00000080008 &&& 0x780000 : Frame) = 0x80000 ∧
    (fC &&& 0x780000) = 0x180000 ∧ (0x7FFF927F908 &&& 0x780000 : Frame) = 0x200000 := by decide

/-! ### PacketCodec -/

/-- R100 and section 3.1. -/
theorem test_checksum :
    checksum 0x2C 0xBE 0x02 0x32 = 0x1E ∧ checksum 0 0 0 0 = 0 ∧ checksum 0xFF 0xFF 0xFF 0xFF = 0xFC ∧
    checksum 0x80 0x80 0 0 = 0 ∧ checksum 0xFF 0xFF 0x24 0xFF = 0x21 ∧ checksum 1 2 3 4 = 0x0A := by decide

/-- Section 3.1, vectors KV, B, C, D, E, H. -/
theorem test_encode :
    encodeFrame { id := 0x2CBE, channel := .zero, action := .vibrate, intensity := 50 } = 0x165F01190F0 ∧
    encodeFrame { id := 0xFFFF, channel := .two, action := .light, intensity := 255 } = 0x7FFF927F908 ∧
    encodeFrame { id := 0x1234, channel := .one, action := .beep, intensity := 99 } = 0x091A09B1DE0 ∧
    encodeFrame { id := 0xABCD, channel := .two, action := .shock, intensity := 50 } = 0x55E69099658 ∧
    encodeFrame { id := 0x00FF, channel := .zero, action := .shock, intensity := 0 } = 0x007F8080000 ∧
    encodeFrame { id := 0xFF01, channel := .zero, action := .shock, intensity := 255 } = 0x7F8080FF800 := by decide

/-- Section 3.2, d1 to d7: the nibbles are tested first. -/
theorem test_decode_vectors :
    decodeBits (be 40 0x2CBE02321E) = .ok { id := 0x2CBE, channel := .zero, action := .vibrate, intensity := 50 } ∧
    decodeBits (be 40 0x2CBE02321F) = .error .checksumMismatch ∧
    decodeBits (be 40 0x2CBE32324E) = .error .invalidChannel ∧
    decodeBits (be 40 0x2CBEF2320E) = .error .invalidChannel ∧
    decodeBits (be 40 0x2CBE00321C) = .error .invalidAction ∧
    decodeBits (be 40 0x2CBE053221) = .error .invalidAction ∧
    decodeBits (be 40 0x2CBE2F324B) = .error .invalidAction := by decide

/-- Section 3.2, d8 to d15: several defects, undetected changes, what follows the 40th bit. -/
theorem test_decode_corners :
    decodeBits (be 40 0x2CBE303200) = .error .invalidChannel ∧
    decodeBits (be 40 0x2CBE203200) = .error .invalidAction ∧
    decodeBits (be 40 0) = .error .invalidAction ∧
    decodeBits (be 40 0xFFFFFFFFFF) = .error .invalidChannel ∧
    decodeBits (be 40 0xBE2C02321E) = .ok { id := 0xBE2C, channel := .zero, action := .vibrate, intensity := 50 } ∧
    decodeBits (be 40 0x2CBF02311E) = .ok { id := 0x2CBF, channel := .zero, action := .vibrate, intensity := 49 } ∧
    decodeBits (be 40 0x2CBE02321E ++ [true, true, true]) = decodeBits (be 40 0x2CBE02321E) ∧
    decodeBits (be 40 0x2CBE02321E ++ [false, false, false, true, false]) = decodeBits (be 40 0x2CBE02321E) := by
  decide

/-- Section 3.2: the status code of an error, and that the block is not touched. -/
theorem test_decode_status :
    nextHolds (exec (.decode (be 40 0x2CBE05321E)) (sending [fB] .host))
      (fun t => decide (t.out.decStatus = some 2) && decide (t.queue = [fA, fB]) && t.emBusy) = true ∧
    refusedWith (exec (.decode (be 39 0)) (ready .host)) .shortSequence = true := by decide

/-- Section 3.1 on the ports, before `INIT` too; U1. -/
theorem test_encode_ports :
    nextHolds (exec (.encode 0x2CBE 0 2 50) State.reset) (fun t => decide (t.out.encFrame = some fV)) = true ∧
    refusedWith (exec (.encode 0x2CBE 3 2 50) State.reset) .notACommand = true := by decide

theorem test_checksum_ports :
    nextHolds (exec (.checksum 0xBE 0x2C 0x02 0x32) State.reset) (fun t => decide (t.out.sum = some 0x1E)) = true := by decide

/-! ### PulseMap -/

/-- R133 and section 3.4. -/
theorem test_ticks :
    ticks 32768 1400 = 46 ∧ ticks 32768 750 = 25 ∧ ticks 32768 250 = 8 ∧ ticks 2000 750 = 2 ∧ ticks 2000 250 = 1 ∧
    ticks 1000 250 = 0 ∧ ticks 80000000 1400 = 112000 ∧ ticks 1000000 0 = 0 := by decide

theorem test_ticks_ports :
    nextHolds (exec (.ticks 750) { State.reset with agent := .inside, par := { Params.default with tickHz := 2000 } })
      (fun t => decide (t.out.tickCount = some 2)) = true ∧
    refusedWith (exec (.ticks 750) State.reset) .agentNotAllowed = true := by decide

/-- Section 3.4: the train of KV, `O` for (750, 250) and `Z` for (250, 750). -/
theorem test_toSignal :
    nextHolds (exec (.toSignal fV) (ready .host)) (fun t =>
      decide (t.out.mapTrain.map (fun m => m.map fun y => (y.high, y.low)) =
        some ((1400, 750) ::
          (be 43 0b0010110010111110000000100011001000011110000).map fun b => if b then (750, 250) else (250, 750))) &&
      decide (t.out.mapTrain.map trainTicks = some 45150)) = true := by decide

/-- Section 3.4: the first entries of the waveform, and the train at 32 768 Hz. -/
theorem test_wave :
    (wave (toSignal (loadedCfg Params.default) fV)).take 8 =
      [(true, 1400), (false, 750), (true, 250), (false, 750), (true, 250), (false, 750), (true, 750), (false, 250)] ∧
    trainTicks (toSignal (loadedCfg { Params.default with tickHz := 32768 }) fV) = 1490 := by decide

/-! ### The queue: section 3.5 -/

/-- q15, and vector C1 as a program line. -/
theorem test_shock :
    nextHolds (exec (.shock 0x1111 .zero 10) (ready (.producer 0)))
      (is (ready .host) [fA] true false true [.enq fA, .start fA]) = true := by decide
theorem test_vibrate :
    nextHolds (exec (.vibrate 0x2222 .one 20) (sending [] (.producer 0)))
      (is (sending [] .host) [fA, fB] true false true [.enq fB]) = true := by decide
theorem test_beep :
    nextHolds (exec (.beep 0x3333 .two 30) (sending [fB] (.producer 0)))
      (is (sending [fB] .host) [fA, fB, fC] true false true [.enq fC]) = true := by decide
theorem test_light :
    nextHolds (exec (.light 0xFFFF .two 255) (ready (.producer 0)))
      (is (ready .host) [0x7FFF927F908] true false true [.enq 0x7FFF927F908, .start 0x7FFF927F908]) = true := by decide
theorem test_send :
    nextHolds (exec (.send 0x1111 0 1 10) (ready (.producer 0)))
      (fun t => is (ready .host) [fA] true false true [.enq fA, .start fA] t && t.pAckOf 0) = true := by decide

/-- q1, q3, q11. -/
theorem test_enq :
    nextHolds (exec (.enq fA) (ready (.producer 0)))
      (is (ready .host) [fA] true false true [.enq fA, .start fA]) = true ∧
    nextHolds (exec (.enq fA) (sending [] (.producer 0)))
      (is (sending [] .host) [fA, fA] true false true [.enq fA]) = true ∧
    nextHolds (exec (.enq fB) (pending [] (.producer 0)))
      (is (pending [] .host) [fA, fB] true true false [.enq fB]) = true := by decide

/-- x2 and x3. -/
theorem test_enq_fault :
    nextHolds (exec (.enq fB) { ready (.producer 0) with queue := [fA] })
      (fun t => decide (t.fault = .invariantViolation) && decide (t.queue = [fA]) && !t.pAckOf 0) = true ∧
    nextHolds (exec (.enq fB) { ready (.producer 0) with active := true })
      (fun t => decide (t.fault = .invariantViolation) && decide (t.queue = []) && decide (t.log = [.fault])) = true := by
  decide

/-- q9, q10, q12. -/
theorem test_abort :
    nextHolds (exec .abort (sending [fB, fC] (.producer 0)))
      (is (sending [fB, fC] .host) [fA] true false true [.abort 2]) = true ∧
    nextHolds (exec .abort (ready (.producer 0))) (is (ready .host) [] false false false [.abort 0]) = true ∧
    nextHolds (exec .abort (pending [] (.producer 0))) (is (pending [] .host) [fA] true true false [.abort 0]) = true := by
  decide

/-- q16; R197: a halted block has no step for it. -/
theorem test_nop :
    nextHolds (exec .nop (ready (.producer 0))) (fun t => decide (t = ready (.producer 0))) = true ∧
    refusedWith (exec .nop (halted (.producer 0))) .halted = true := by decide

/-- q4, q14; q13's second `EMIT_DONE`. -/
theorem test_emitDone :
    nextHolds (exec .emitDone (sending [fB] .emitter))
      (is (sending [fB] .host) [fA, fB] true true false [.done fA]) = true ∧
    refusedWith (exec .emitDone (ready .emitter)) .emitterIdle = true ∧
    refusedWith (exec .emitDone (pending [] .emitter)) .emitterIdle = true := by decide

/-- q5, q6, q7. -/
theorem test_complete :
    nextHolds (exec .complete (pending [fB] .completion))
      (fun t => is (pending [fB] .host) [fB] true false true [.complete fA, .start fB] t && decide (t.emFrame = fB))
      = true ∧
    nextHolds (exec .complete (pending [] .completion)) (is (pending [] .host) [] false false false [.complete fA]) = true ∧
    nextHolds (exec .complete (sending [] .completion)) (is (sending [] .host) [fA] true false true []) = true := by
  decide

/-- x1 and x4: nothing else changes, not even `done_pending`. -/
theorem test_complete_fault :
    nextHolds (exec .complete { ready .completion with active := true, donePending := true, emFrame := fA })
      (fun t => decide (t.fault = .invariantViolation) && t.donePending && t.active && decide (t.log = [.fault])) = true ∧
    nextHolds (exec .complete { ready .completion with queue := [fA], donePending := true, emFrame := fA })
      (fun t => decide (t.fault = .invariantViolation) && t.donePending && decide (t.queue = [fA])) = true := by decide

/-- R156, U4, R233. -/
theorem test_start :
    nextHolds (exec (.start fB) (ready .inside))
      (fun t => t.emBusy && t.out.emStart && decide (t.emFrame = fB) && decide (t.log = [.start fB])) = true ∧
    nextHolds (exec (.start fB) (sending [] .inside))
      (fun t => decide (t.fault = .invariantViolation) && decide (t.emFrame = fA)) = true ∧
    faultedWith (exec (.start fB) { State.reset with agent := .inside }) .configurationUnwritten = true := by decide

/-! ### The host -/

/-- R230: its worked example, from the halted state. -/
theorem test_reset :
    nextHolds (exec .reset (halted .host))
      (fun t => !t.stActive && t.stQlen == 0 && !t.stFault && !t.kIrq && !t.initialised && decide (t.log = [])) = true ∧
    refusedWith (exec .reset (sending [] .host)) .workPending = true := by decide

/-- R231: its worked example; section 3.4 at 1000 Hz; a second `INIT`. -/
theorem test_init :
    nextHolds (exec .init State.reset) (fun t => t.initialised && decide (t.cfg =
      { tickHz := 1000000, syncH := 1400, syncL := 750, oneH := 750, oneL := 250, zeroH := 250, zeroL := 750 })) = true ∧
    refusedWith (exec .init { State.reset with par := { Params.default with tickHz := 1000 } }) .illFormedConfiguration
      = true ∧
    refusedWith (exec .init (ready .host)) .alreadyInitialised = true := by decide

/-- Section 3.4: 112 000 ticks need 17 bits. -/
theorem test_init_width :
    refusedWith (exec .init { State.reset with par := { Params.default with tickHz := 80000000 } }) .illFormedConfiguration
      = true ∧
    nextHolds (exec .init { State.reset with par := { Params.default with tickHz := 80000000, durW := 17 } })
      (fun t => decide (t.cfg.syncH = 112000)) = true := by decide

/-! ### Steps -/

/-- R10: a step serves the request; R205, R83, R44: those that have no step. -/
theorem test_step :
    nextHolds (step (State.reset.withFetchWord 8 0xD)) (fun t => t.initialised && decide (t.program = [])) = true ∧
    nextHolds (step ((ready .host).withFetchWord 48 0x08888085168))
      (is (ready .host) [fA] true false true [.enq fA, .start fA]) = true ∧
    refusedWith (step (State.reset.withFetchWord 8 0xE)) (.noOperation .reservedOpn) = true ∧
    refusedWith (step (State.reset.withFetchWord 8 0x3)) .notInitialised = true := by decide

/-- R205, D30: no agent performs `START` or `TICKS`; their words are requests that have no step. -/
theorem test_step_internal :
    refusedWith (step ((ready .host).withFetchWord 8 0x6)) .agentNotAllowed = true ∧
    refusedWith (step ((ready .host).withFetchWord 8 0xC)) .agentNotAllowed = true := by decide

/-- R31: a decode error stands on `dec_status` in its own step, and the step after, a `RESET` here, or an idle one, no
longer has it. -/
theorem test_decode_error_is_not_held :
    nextHolds (step ((ready .host).withFetchWord 8 0x9)) (fun t =>
      decide (t.out.decStatus = some 2) &&
      nextHolds (step (t.withFetchWord 8 0x7)) (fun u => decide (u.out.decStatus = none)) &&
      nextHolds (step t) (fun u => decide (u.out.decStatus = none))) = true := by decide

/-- R86: the expansions of `REPEAT` and `DONE`. -/
theorem test_pseudo_operations :
    doneLines.map (fun g => g.map fun r => (r.agent, decode r.word)) =
      [[(.emitter, .ok .emitDone)], [(.completion, .ok .complete)]] ∧
    repeated 2 { agent := .producer 0, word := .pOp 0x3 0 0 } =
      [[{ agent := .producer 0, word := .pOp 0x3 0 0 }], [{ agent := .producer 0, word := .pOp 0x3 0 0 }]] := by decide

theorem test_step_agent :
    refusedWith (step { ready .host with program := [[{ agent := .producer 0, word := .label 0x4 .zero }]] }) .agentNotAllowed
      = true ∧
    refusedWith (step { ready .host with program := [[{ agent := .producer 1, word := .pOp 0x0 0 0 }]] }) .noSuchProducer
      = true ∧
    refusedWith (step { ready .host with program := [[{ agent := .producer 0, word := .pOp 0x8 0x2CBE0232 0 }]] })
      (.noOperation .notAProducerOperation) = true ∧
    nextHolds (step (ready .host)) (fun t => decide (t = ready .host)) = true := by decide

/-- R57: of two `ENQ`s that one producer has issued, only the first may be served. -/
theorem test_issue_order :
    candidates (ready .host)
      [{ agent := .producer 0, word := encode (.enq fA) }, { agent := .producer 0, word := encode (.enq fB) },
        { agent := .host, word := encode .reset }] = [0, 2] := by decide

/-! ### Witnesses: states and operands that meet the hypotheses of the obligations -/

theorem inv_ready (a : Context) : (ready a).Inv := by
  constructor <;>
    simp [ready, State.reset, survivingFrames, completedFrames, startedFrames, emittedFrames, Params.default]
  decide

theorem inv_sending (a : Context) : (sending [fB] a).Inv := by
  constructor <;>
    simp [sending, ready, State.reset, survivingFrames, surviveEvent, completedFrames, startedFrames, emittedFrames,
      Params.default]
  decide

theorem inv_pending (a : Context) : (pending [fB] a).Inv := by
  constructor <;>
    simp [pending, sending, ready, State.reset, survivingFrames, surviveEvent, completedFrames, startedFrames,
      emittedFrames, Params.default]
  decide

theorem producer_ready : (ready (.producer 0)).servesProducer := ⟨0, rfl, by decide⟩
theorem producer_sending : (sending [fB] (.producer 0)).servesProducer := ⟨0, rfl, by decide⟩
theorem pure_reset : State.reset.servesPureUser := ⟨by decide, fun p h => by cases h⟩
theorem pure_ready : (ready (.producer 0)).servesPureUser := ⟨by decide, fun p h => by cases h; decide⟩
theorem room (s : State) (h : s.par.qdepth = none) : s.roomFor := fun d hd => by rw [h] at hd; cases hd

theorem test_witness_ChecksumIsByteSumModulo256 : State.reset.servesPureUser ∧ (ready (.producer 0)).servesPureUser :=
  ⟨pure_reset, pure_ready⟩

theorem test_witness_DecodeUndoesEncode :
    40 ≤ (be 40 0x2CBE02321E).length ∧
    decodeBits (be 40 0x2CBE02321E) = .ok { id := 0x2CBE, channel := .zero, action := .vibrate, intensity := 50 } := by
  decide

theorem test_witness_DecodeReportsTheFirstDefect :
    (∃ t, exec (.decode (be 40 0x2CBE32324E)) (ready .host) = .next t ∧ t.out.decStatus ≠ (ready .host).out.decStatus) ∧
    (∃ t, step ((ready .host).withFetchWord 8 0x9) = .next t ∧ t.out.decStatus = some 2) ∧
    ∃ t, step (ready .host) = .next t ∧ t.out.decStatus = none :=
  ⟨⟨_, rfl, by decide⟩, ⟨_, rfl, by decide⟩, _, rfl, rfl⟩

theorem test_witness_DecodeReadsOnlyFirstFortyBits : 40 ≤ (be 40 0x2CBE02321E).length := by decide

/-- Each clause at a boundary of its range; expected from section 3.3. -/
theorem test_witness_SingleBitFlipIsDetected :
    decodeBits ((frameBits fV).set 15 true) = .error .checksumMismatch ∧
    decodeBits ((frameBits fV).set 16 true) = .error .invalidChannel ∧
    decodeBits ((frameBits fV).set 19 true) = .error .checksumMismatch ∧
    decodeBits ((frameBits fV).set 20 true) = .error .invalidAction ∧
    decodeBits ((frameBits fV).set 23 true) = .error .checksumMismatch ∧
    decodeBits ((frameBits fV).set 24 true) = .error .checksumMismatch ∧
    decodeBits ((frameBits fV).set 39 true) = .error .checksumMismatch ∧
    decodeBits ((frameBits fV).set 40 true) =
      .ok { id := 0x2CBE, channel := .zero, action := .vibrate, intensity := 50 } := by decide

theorem test_witness_EncodeIsInjectiveOnThePayload :
    (frameBits (encodeFrame { id := 1, channel := .zero, action := .shock, intensity := 0 })).take 32 =
      (frameBits (encodeFrame { id := 1, channel := .zero, action := .shock, intensity := 0 })).take 32 := rfl

theorem test_witness_EncodeCompletes :
    State.reset.servesPureUser ∧ 2 < (3 : Nibble).toNat ∧ (0 : Nibble).toNat = 0 ∧ 4 < (5 : Nibble).toNat :=
  ⟨pure_reset, by decide⟩

theorem test_witness_DecodeCompletes :
    (ready (.producer 0)).servesPureUser ∧ 40 ≤ (be 40 0x2CBE02321E).length ∧ (be 39 0).length < 40 ∧
    decodeBits (be 40 0x2CBE02321E) = .ok { id := 0x2CBE, channel := .zero, action := .vibrate, intensity := 50 } ∧
    decodeBits (be 40 0x2CBE02321F) = .error .checksumMismatch :=
  ⟨pure_ready, by decide⟩

theorem test_witness_PureFunctionsTouchNoState :
    pureOp (.toSignal fV) = true ∧ ∃ t, exec (.toSignal fV) (ready .host) = .next t := ⟨rfl, _, rfl⟩

theorem test_witness_SendIsEncodeThenEnq : 2 < (3 : Nibble).toNat ∧ 4 < (5 : Nibble).toNat := by decide

theorem test_witness_EnqStartsOrAppends :
    ((ready (.producer 0)).servesProducer ∧ (ready (.producer 0)).operational ∧ (ready (.producer 0)).roomFor ∧
      (ready (.producer 0)).active = false ∧ (ready (.producer 0)).queue = [] ∧ (ready (.producer 0)).emBusy = false) ∧
    ((sending [fB] (.producer 0)).servesProducer ∧ (sending [fB] (.producer 0)).operational ∧
      (sending [fB] (.producer 0)).roomFor ∧ (sending [fB] (.producer 0)).active = true ∧
      (sending [fB] (.producer 0)).queue ≠ []) :=
  ⟨⟨producer_ready, ⟨rfl, rfl⟩, room _ rfl, rfl, rfl, rfl⟩, producer_sending, ⟨rfl, rfl⟩, room _ rfl, rfl, by decide⟩

theorem test_witness_EnqueuingOperationsComplete :
    enqueuedFrame (.send 0x1111 0 1 10) = some fA ∧ enqueuedFrame (.shock 0x1111 .zero 10) = some fA ∧
    ((ready (.producer 0)).servesProducer ∧ (ready (.producer 0)).operational ∧ (ready (.producer 0)).roomFor ∧
      (ready (.producer 0)).Inv ∧ (ready (.producer 0)).queue = []) ∧
    ((sending [fB] (.producer 0)).servesProducer ∧ (sending [fB] (.producer 0)).operational ∧
      (sending [fB] (.producer 0)).roomFor ∧ (sending [fB] (.producer 0)).Inv ∧ (sending [fB] (.producer 0)).queue ≠ []) :=
  ⟨by decide, by decide, ⟨producer_ready, ⟨rfl, rfl⟩, room _ rfl, inv_ready _, rfl⟩, producer_sending, ⟨rfl, rfl⟩,
    room _ rfl, inv_sending _, by decide⟩

theorem test_witness_FullQueueTakesNoFrame :
    enqueuedFrame (.enq fC) = some fC ∧
    { sending [fB] (.producer 0) with par := { Params.default with qdepth := some 2 } }.servesProducer ∧
    { sending [fB] (.producer 0) with par := { Params.default with qdepth := some 2 } }.operational ∧
    2 ≤ { sending [fB] (.producer 0) with par := { Params.default with qdepth := some 2 } }.queue.length :=
  ⟨rfl, ⟨0, rfl, by decide⟩, ⟨rfl, rfl⟩, by decide⟩

theorem test_witness_AbortDropsOnlyTheBacklog :
    ((sending [fB] (.producer 0)).servesProducer ∧ (sending [fB] (.producer 0)).operational ∧
      (sending [fB] (.producer 0)).par.hasAbort = true ∧ (sending [fB] (.producer 0)).active = true ∧
      (sending [fB] (.producer 0)).queue = fA :: [fB]) ∧
    ((ready (.producer 0)).servesProducer ∧ (ready (.producer 0)).operational ∧
      (ready (.producer 0)).par.hasAbort = true ∧ (ready (.producer 0)).active = false ∧
      (ready (.producer 0)).queue = []) ∧
    ({ ready (.producer 0) with par := { Params.default with hasAbort := false } }.servesProducer ∧
      { ready (.producer 0) with par := { Params.default with hasAbort := false } }.par.hasAbort = false) :=
  ⟨⟨producer_sending, ⟨rfl, rfl⟩, rfl, rfl, rfl⟩, ⟨producer_ready, ⟨rfl, rfl⟩, rfl, rfl, rfl⟩, ⟨0, rfl, by decide⟩, rfl⟩

theorem test_witness_AbortIsIdempotent :
    ∃ t, exec .abort (sending [fB] (.producer 0)) = .next t ∧ t.fault = .none := ⟨_, rfl, rfl⟩

theorem test_witness_NopChangesNothing :
    ((ready (.producer 0)).servesProducer ∧ (ready (.producer 0)).fault = .none) ∧
    (halted (.producer 0)).servesProducer ∧ (halted (.producer 0)).fault ≠ .none :=
  ⟨⟨producer_ready, rfl⟩, ⟨0, rfl, by decide⟩, by decide⟩

theorem test_witness_ProducersNeverWait :
    producerOp (.send 0x1111 2 4 10) = true ∧ (Instr.send 0x1111 2 4 10).wellFormed = true ∧
    (sending [fB] (.producer 0)).servesProducer ∧ (sending [fB] (.producer 0)).operational ∧
    (sending [fB] (.producer 0)).roomFor ∧ (sending [fB] (.producer 0)).par.hasAbort = true :=
  ⟨rfl, by decide, producer_sending, ⟨rfl, rfl⟩, room _ rfl, rfl⟩

theorem test_witness_ProducerOperationsFrame :
    producerOp (.enq fA) = true ∧ (∃ t, exec (.enq fA) (ready (.producer 0)) = .next t) ∧
    producerOp .abort = true ∧ ∃ t, exec .abort (ready (.producer 0)) = .next t :=
  ⟨rfl, ⟨_, rfl⟩, rfl, _, rfl⟩

theorem test_witness_StartHandsTheTrainToAFreeEmitter :
    ((ready .inside).agent = .inside ∧ (ready .inside).operational ∧ (ready .inside).emBusy = false) ∧
    ((sending [] .inside).agent = .inside ∧ (sending [] .inside).fault = .none ∧ (sending [] .inside).emBusy = true) ∧
    ({ State.reset with agent := .inside }.fault = .none ∧ { State.reset with agent := .inside }.emBusy = false ∧
      { State.reset with agent := .inside }.initialised = false) :=
  ⟨⟨rfl, ⟨rfl, rfl⟩, rfl⟩, ⟨rfl, rfl, rfl⟩, rfl, rfl, rfl⟩

theorem test_witness_EmitDoneRaisesTheNotification :
    ((sending [] .emitter).agent = .emitter ∧ (sending [] .emitter).fault = .none ∧ (sending [] .emitter).emBusy = true) ∧
    ((ready .emitter).agent = .emitter ∧ (ready .emitter).fault = .none ∧ (ready .emitter).emBusy = false) ∧
    (halted .emitter).agent = .emitter ∧ (halted .emitter).fault ≠ .none := by decide

theorem test_witness_CompleteWithoutNotificationChangesNothing :
    (sending [] .completion).agent = .completion ∧ (sending [] .completion).operational ∧
    (sending [] .completion).donePending = false := ⟨rfl, ⟨rfl, rfl⟩, rfl⟩

theorem test_witness_CompleteAdvancesTheQueue :
    ((pending [] .completion).agent = .completion ∧ (pending [] .completion).operational ∧
      (pending [] .completion).donePending = true ∧ (pending [] .completion).active = true ∧
      (pending [] .completion).queue = [fA]) ∧
    ((pending [fB] .completion).agent = .completion ∧ (pending [fB] .completion).operational ∧
      (pending [fB] .completion).donePending = true ∧ (pending [fB] .completion).active = true ∧
      (pending [fB] .completion).emBusy = false ∧ (pending [fB] .completion).queue = fA :: fB :: []) :=
  ⟨⟨rfl, ⟨rfl, rfl⟩, rfl, rfl, rfl⟩, rfl, ⟨rfl, rfl⟩, rfl, rfl, rfl, rfl⟩

theorem test_witness_CompletionSideFrame :
    (∃ t, exec .complete (pending [fB] .completion) = .next t) ∧
    (∃ t, exec .emitDone (sending [] .emitter) = .next t) ∧ ∃ t, exec (.start fB) (ready .inside) = .next t :=
  ⟨⟨_, rfl⟩, ⟨_, rfl⟩, _, rfl⟩

theorem test_witness_DisagreementRaisesInvariantViolation :
    ({ ready (.producer 0) with active := true }.servesProducer ∧ { ready (.producer 0) with active := true }.operational ∧
      { ready (.producer 0) with active := true }.roomFor ∧
      { ready (.producer 0) with active := true }.par.hasAbort = true ∧
      ({ ready (.producer 0) with active := true }.active = true ↔
        { ready (.producer 0) with active := true }.queue = [])) ∧
    ({ ready .completion with donePending := true }.agent = .completion ∧
      { ready .completion with donePending := true }.operational ∧
      { ready .completion with donePending := true }.active = false) ∧
    ({ ready (.producer 0) with emBusy := true }.servesProducer ∧ { ready (.producer 0) with emBusy := true }.operational ∧
      { ready (.producer 0) with emBusy := true }.roomFor ∧ { ready (.producer 0) with emBusy := true }.active = false ∧
      { ready (.producer 0) with emBusy := true }.queue = []) ∧
    ({ pending [fB] .completion with emBusy := true }.agent = .completion ∧
      { pending [fB] .completion with emBusy := true }.operational ∧
      { pending [fB] .completion with emBusy := true }.donePending = true ∧
      { pending [fB] .completion with emBusy := true }.active = true ∧
      { pending [fB] .completion with emBusy := true }.queue = fA :: fB :: []) :=
  ⟨⟨⟨0, rfl, by decide⟩, ⟨rfl, rfl⟩, room _ rfl, rfl, by decide⟩, ⟨rfl, ⟨rfl, rfl⟩, rfl⟩,
    ⟨⟨0, rfl, by decide⟩, ⟨rfl, rfl⟩, room _ rfl, rfl, rfl⟩, rfl, ⟨rfl, rfl⟩, rfl, rfl, rfl⟩

theorem test_witness_FaultEntryDiscardsTheStep :
    ∃ t, exec (.enq fB) { ready (.producer 0) with queue := [fA] } = .next t ∧ t.fault ≠ .none :=
  ⟨_, rfl, by decide⟩

theorem test_witness_HaltedBlockOnlyResets :
    ((halted .host).fault ≠ .none ∧ pureOp .nop = false ∧ Instr.nop ≠ .reset) ∧
    (pureOp (.decode (be 40 0)) = true ∧ (Instr.decode (be 40 0)).wellFormed = true ∧
      listedFor (.decode (be 40 0)) (halted .host).agent ∧ (∀ p, (halted .host).agent = .producer p → p < 1) ∧
      (halted .host).initialised = true) ∧
    (pureOp (.ticks 1) = true ∧ listedFor (.ticks 1) (halted .inside).agent) ∧
    ∃ t, exec .reset (halted .host) = .next t ∧ t.fault = .none :=
  ⟨by decide, ⟨rfl, by decide, by simp [listedFor, halted, ready], fun _ h => (by cases h), rfl⟩,
    ⟨rfl, by simp [listedFor, halted, ready]⟩, _, rfl, rfl⟩

theorem test_witness_NotificationIsNeverLost :
    ∃ t, exec .complete (pending [] .completion) = .next t ∧ (pending [] .completion).donePending = true ∧
      t.donePending = false := ⟨_, rfl, rfl, rfl⟩

theorem test_witness_OnlyACompletionRemovesTheFront :
    ∃ t, exec .complete (pending [fB] .completion) = .next t := ⟨_, rfl⟩

theorem test_witness_TrainInFlightIsNeverReplaced :
    ∃ t, exec .abort (sending [fB] (.producer 0)) = .next t ∧ (sending [fB] (.producer 0)).emBusy = true := ⟨_, rfl, rfl⟩

theorem test_witness_FlagsAreWrittenOnlyByTheirOperations :
    (∃ t, exec (.enq fA) (ready (.producer 0)) = .next t ∧ t.active = true ∧ t.emBusy = true) ∧
    (∃ t, exec .complete (pending [] .completion) = .next t ∧ t.active = false ∧ t.donePending = false) ∧
    (∃ t, exec .emitDone (sending [] .emitter) = .next t ∧ t.donePending = true ∧ t.emBusy = false) ∧
    (∃ t, exec .abort { ready (.producer 0) with active := true } = .next t ∧ t.fault = .invariantViolation) ∧
    (∃ t, exec .reset (halted .host) = .next t ∧ t.fault = .none) ∧
    (∃ t, exec .init State.reset = .next t ∧ t.initialised = true) ∧
    ∃ t, exec .reset (ready .host) = .next t ∧ t.initialised = false :=
  ⟨⟨_, rfl, rfl, rfl⟩, ⟨_, rfl, rfl, rfl⟩, ⟨_, rfl, rfl, rfl⟩, ⟨_, rfl, rfl⟩, ⟨_, rfl, rfl⟩, ⟨_, rfl, rfl⟩, _, rfl, rfl⟩

theorem test_witness_ConfigurationIsFrozen :
    (∃ t, exec .init State.reset = .next t ∧ t.cfg ≠ State.reset.cfg) ∧
    ∃ t, step ((ready .host).withFetchWord 48 0x08888085168) = .next t ∧
      ((ready .host).withFetchWord 48 0x08888085168).initialised = true ∧ t.initialised = true :=
  ⟨⟨_, rfl, by decide⟩, _, rfl, rfl, rfl⟩

theorem test_witness_UnlistedAgentsHaveNoStep :
    ¬ listedFor .complete (ready (.producer 0)).agent ∧ (ready (.producer 1)).agent = .producer 1 ∧
    (ready (.producer 1)).par.nprod ≤ 1 := ⟨by simp [listedFor, ready], rfl, by decide⟩

theorem test_witness_EnqueueAndCompleteCommute :
    (0 < (pending [] .host).par.nprod ∧ (pending [] .host).operational ∧ (pending [] .host).roomFor ∧
      (pending [] .host).queue ≠ [] ∧ (pending [] .host).active = true ∧ (pending [] .host).donePending = true ∧
      (pending [] .host).emBusy = false) ∧
    (0 < (sending [] .host).par.nprod ∧ (sending [] .host).operational ∧
      (∀ d, (sending [] .host).par.qdepth = some d → (sending [] .host).queue.length + 1 < d) ∧
      (sending [] .host).queue ≠ [] ∧ (sending [] .host).active = true) ∧
    (0 < (ready .host).par.nprod ∧ (ready .host).operational ∧
      (∀ d, (ready .host).par.qdepth = some d → 1 < d) ∧
      (ready .host).queue = [] ∧ (ready .host).active = false ∧ (ready .host).emBusy = false) :=
  ⟨⟨by decide, ⟨rfl, rfl⟩, room _ rfl, by decide, rfl, rfl, rfl⟩,
    ⟨by decide, ⟨rfl, rfl⟩, fun d hd => (by cases hd), by decide, rfl⟩,
    by decide, ⟨rfl, rfl⟩, fun d hd => (by cases hd), rfl, rfl, rfl⟩

theorem test_witness_TicksCompletes : (ready .inside).agent = .inside := rfl

theorem test_witness_TrainHasOneSymbolPerBit : 1 ≤ 43 ∧ 41 ≤ 43 := by decide

theorem test_witness_TrainLaws : (loadedCfg Params.default).wellFormed 16 = true := by decide

theorem test_witness_SyncMarkerIsNotReachableByData : (loadedCfg Params.default).wellFormed 16 = true := by decide

theorem test_witness_TosignalCompletesAfterInit :
    ((ready (.producer 0)).servesPureUser ∧ (ready (.producer 0)).initialised = true) ∧
    State.reset.servesPureUser ∧ State.reset.initialised = false := ⟨⟨pure_ready, rfl⟩, pure_reset, rfl⟩

theorem test_witness_LineCarriesTheTrainInFlight :
    (ready .host).emBusy = false ∧ (sending [] .host).emBusy = true ∧ 43 < 44 := by decide

theorem test_witness_ResetLeavesTheResetState :
    ((halted .host).agent = .host ∧ (halted .host).fault ≠ .none) ∧ (ready .host).agent = .host ∧ (ready .host).quiet :=
  ⟨by decide, rfl, rfl, rfl, rfl, rfl⟩

theorem test_witness_NoResetOrInitWhileWorkIsPending :
    ((sending [] .host).agent = .host ∧ (sending [] .host).fault = .none ∧ ¬ (sending [] .host).quiet) ∧
    (ready .host).agent = .host ∧ (ready .host).fault = .none ∧ (ready .host).initialised = true :=
  ⟨⟨rfl, rfl, fun h => by cases h.1⟩, rfl, rfl, rfl⟩

theorem test_witness_InitLoadsTheConfiguration :
    (State.reset.agent = .host ∧ State.reset.fault = .none ∧ State.reset.initialised = false ∧ State.reset.quiet ∧
      (loadedCfg State.reset.par).wellFormed State.reset.par.durW = true) ∧
    (loadedCfg { Params.default with tickHz := 1000 }).wellFormed 16 = false :=
  ⟨⟨rfl, rfl, rfl, ⟨rfl, rfl, rfl, rfl⟩, by decide⟩, by decide⟩

/-- The lower end of every range (the defaults) and the upper end. -/
theorem test_witness_AdmittedConstantsAreWellFormed :
    paramsAdmitted Params.default = true ∧
    paramsAdmitted { Params.default with tSyncL := 800, tOneH := 800, tOneL := 300, tZeroH := 300, tZeroL := 800 } = true := by
  decide

theorem test_witness_NothingQueuedBeforeInit :
    State.reset.initialised = false ∧ producerOp (.enq fA) = true ∧ ∃ t, exec (.encode 0x2CBE 0 2 50) State.reset = .next t :=
  ⟨rfl, rfl, _, rfl⟩

theorem test_witness_EveryStepKeepsTheInvariant :
    (ready .host).Inv ∧ ((ready .host).withFetchWord 48 0x08888085168).Inv ∧
    ∃ t, step ((ready .host).withFetchWord 48 0x08888085168) = .next t := by
  refine ⟨inv_ready _, ?_, _, rfl⟩
  obtain ⟨h0, h1, h2, h3, h4, h5, h6, h7, h8, h9, h10⟩ := inv_ready .host
  exact ⟨h0, h1, h2, h3, h4, h5, h6, h7, h8, h9, h10⟩

theorem test_witness_InvariantViolationIsUnreachable :
    (pending [fB] .completion).Inv ∧ (pending [fB] .completion).agent ≠ .inside ∧
    ∃ t, exec .complete (pending [fB] .completion) = .next t := ⟨inv_pending _, by decide, _, rfl⟩

theorem test_witness_StartsAreFifoAndOneInFlight :
    (ready .host).Inv ∧ (sending [fB] .host).Inv ∧ (pending [fB] .host).Inv :=
  ⟨inv_ready _, inv_sending _, inv_pending _⟩

theorem test_witness_QueueDrainsInOrder :
    (sending [fB] .host).Inv ∧ (sending [fB] .host).initialised = true ∧ (ready .host).Inv :=
  ⟨inv_sending _, rfl, inv_ready _⟩

/-- The states of the witness below, from A in flight with B behind it: `EMIT_DONE` and `COMPLETE` twice. -/
def draining0 : State := sending [fB] .emitter
def draining1 : State :=
  { draining0 with
    emBusy := false, donePending := true, log := draining0.log ++ [.done fA], freeCount := 1 }
def draining2 : State :=
  { draining1 with
    queue := [fB], donePending := false, emBusy := true, emFrame := fB,
    log := draining1.log ++ [.complete fA, .start fB], agent := .completion, freeCount := 2,
    out := { Outputs.rest with emStart := true, emTrain := some (toSignal (loadedCfg Params.default) fB) } }
def draining3 : State :=
  { draining2 with
    emBusy := false, donePending := true, log := draining2.log ++ [.done fB], agent := .emitter, freeCount := 3,
    out := Outputs.rest }
def draining4 : State :=
  { draining3 with
    queue := [], active := false, donePending := false, log := draining3.log ++ [.complete fB], agent := .completion,
    freeCount := 4 }

def drainingState : Nat → State
  | 0 => draining0
  | 1 => draining1
  | 2 => draining2
  | 3 => draining3
  | _ + 4 => draining4

def drainingPorts : Nat → List Request
  | 0 => [{ agent := .emitter, word := encode .emitDone }]
  | 1 => [{ agent := .completion, word := encode .complete }]
  | 2 => [{ agent := .emitter, word := encode .emitDone }]
  | 3 => [{ agent := .completion, word := encode .complete }]
  | _ + 4 => []

def drainingRun : Run :=
  { state := drainingState, ports := drainingPorts, served := fun n => if n < 4 then some 0 else none }

theorem draining_legal : drainingRun.Legal where
  wait := fun n => by
    match n with
    | 0 | 1 | 2 | 3 => simp [drainingRun, drainingPorts, leftOver]
    | n + 4 => simp [drainingRun, drainingPorts, leftOver]
  idle := fun n h => by
    match n with
    | 0 | 1 | 2 | 3 => simp [drainingRun] at h
    | n + 4 => exact ⟨[], rfl⟩
  serve := fun n k h => by
    match n with
    | 0 => cases h; exact ⟨_, [], rfl, rfl, rfl⟩
    | 1 => cases h; exact ⟨_, [], rfl, rfl, rfl⟩
    | 2 => cases h; exact ⟨_, [], rfl, rfl, rfl⟩
    | 3 => cases h; exact ⟨_, [], rfl, rfl, rfl⟩
    | n + 4 => simp [drainingRun] at h

theorem draining_fair : drainingRun.Fair where
  emitter := fun n h => by cases (h (n + 4) (by omega)).1
  completion := fun n h => by cases (h (n + 4) (by omega)).1
  arbiter := fun n r h => by
    obtain ⟨k, h, -⟩ := h (n + 4) (by omega)
    simp [drainingRun, drainingPorts] at h

theorem test_witness_EveryFairRunDrains :
    drainingRun.Legal ∧ drainingRun.Fair ∧ drainingRun.producersStopped ∧ (drainingRun.state 0).Inv ∧
    (drainingRun.state 0).queue = [fA, fB] := by
  refine ⟨draining_legal, draining_fair, fun n => ?_, inv_sending _, rfl⟩
  match n with
  | 0 | 1 | 2 | 3 => simp [drainingRun, drainingPorts, producerWork]
  | n + 4 => simp [drainingRun, drainingPorts]

theorem test_witness_EveryWordHasOneMeaning :
    decode (.wire 0b0010110010111110000000100011001000011110111) = .ok (.vibrate 0x2CBE .zero 50) ∧
    decode (.pOp 0x0 0 0) = .ok .nop ∧ decode (.pOp 0x3 0 0) = .ok .abort ∧
    decode (.label 0x4 .zero) = .ok .complete ∧ decode (.label 0xD .zero) = .ok .init := by decide

theorem test_witness_StepRunsTheDecodedInstruction :
    { ready .host with program := [[{ agent := .host, word := .label 0x7 .zero }]] }.program =
      [{ agent := .host, word := .label 0x7 .zero }] :: [] ∧
    decode (.label 0x7 .zero) = .ok .reset ∧ decode (.label 0xF .zero) = .error .reservedOpn ∧
    decodeTableWord 8 0xD = some .init ∧ State.reset.program = [] := by decide

/-- Two producers at once (program P6), whichever is served first. -/
theorem test_witness_OneOfSimultaneousRequestsIsServed :
    let group : List Request :=
      [{ agent := .producer 0, word := encode (.enq fA) }, { agent := .producer 1, word := encode (.enq fB) }]
    let s := { ready .host with par := { Params.default with nprod := 2 }, program := [group] }
    (2 ≤ group.length ∧ (candidates s group = [0, 1]) ∧ ∀ u ∈ group.take 1, u.agent ≠ .producer 1) ∧
    nextHolds (exec (.enq fA) (s.serving (.producer 0) [])) (is s [fA] true false true [.enq fA, .start fA]) = true ∧
    nextHolds (exec (.enq fB) (s.serving (.producer 1) [])) (is s [fB] true false true [.enq fB, .start fB]) = true := by
  decide

/-- The first clause: with two requests at the ports the step answers a next state. -/
theorem test_a_step_of_two_requests :
    let r : Request := { agent := .producer 0, word := encode .nop }
    ∃ t, step { ready .host with program := [[r, r]] } = .next t := by
  intro r
  have hc : candidates { ready .host with program := [[r, r]] } [r, r] = [0] := by decide
  simp only [step, presented_cons, arbitrate, hc, List.length_singleton, Nat.mod_one]
  exact ⟨_, rfl⟩

end Sys2Proof.Tests
end

section
/-! SUPPORT. The scope of the block (`spec/00_scope.md`): what an operation that writes output ports only leaves as it
was, what a step with one request or none does, and the two obligations of this family. -/

namespace Sys2Proof.Machine

/-! ### Writing output ports only -/

/-- The output ports are no state of R40. -/
theorem State.sameBlock_withOut (s : State) (o : Outputs) : s.sameBlock { s with out := o } :=
  ⟨rfl, rfl, rfl, rfl, rfl, rfl, rfl, rfl, rfl⟩

/-- The output ports are none of the surroundings. -/
theorem State.sameSurroundings_withOut (s : State) (o : Outputs) : s.sameSurroundings { s with out := o } :=
  ⟨rfl, rfl, rfl, rfl⟩

/-- Settles O12: a next state of a pure function is the old one with other result ports (`exec_pure_next`). -/
theorem pureFunctionsTouchNoState : Obligations.PureFunctionsTouchNoState := by
  intro i s t hi h
  obtain ⟨o, rfl, hAck, hStart, hTrain, -⟩ := exec_pure_next hi h
  exact ⟨s.sameBlock_withOut o, s.sameSurroundings_withOut o, hAck, hStart, hTrain⟩

/-! ### A step with one request, or none -/

/-- A request whose word decodes is served by its operation (R10, R55). -/
theorem serve_of_decode_ok {r : Request} {i : Instr} (h : decode r.word = .ok i) (s : State)
    (p : List (List Request)) : serve s r p = exec i (s.serving r.agent p) := by
  simp [serve, h]

/-- A word that presents no operation has no step (R83). -/
theorem serve_of_decode_error {r : Request} {why : Reject} (h : decode r.word = .error why) (s : State)
    (p : List (List Request)) : serve s r p = .refused (.noOperation why) := by
  simp [serve, h]

/-- A request that stands alone at the ports is the one served, and leaves the later ones. -/
theorem step_of_alone {s : State} {r : Request} {later : List (List Request)} (h : s.program = [r] :: later) :
    step s = serve s r later := by
  simp [step, h]

/-- With nothing requested the output ports come to rest and nothing else changes (R162). -/
theorem step_of_no_request {s : State} (h : s.program = []) : step s = .next { s with out := Outputs.rest } := by
  simp [step, State.idling, h]

/-! ### Opcode-table words -/

/-- The operation of a table word is what the port word of its row decodes to. -/
theorem decodeTableWord_eq_some {nbits w : Nat} {i : Instr} :
    decodeTableWord nbits w = some i ↔ decode (tableWord nbits w) = .ok i := by
  unfold decodeTableWord
  cases decode (tableWord nbits w) <;> simp

@[simp] theorem tableRequest_word (nbits w : Nat) : (tableRequest nbits w).word = tableWord nbits w := rfl

/-- A table word that decodes stands on the port of the agent that performs its operation (R82, R205). -/
theorem tableRequest_agent {nbits w : Nat} {i : Instr} (h : decode (tableWord nbits w) = .ok i) :
    (tableRequest nbits w).agent = performerOf i := by
  simp [tableRequest, h]

@[simp] theorem State.withFetchWord_program (s : State) (nbits w : Nat) :
    (s.withFetchWord nbits w).program = [tableRequest nbits w] :: s.program := rfl

/-- Once a table word has been taken off the ports, nothing of it is left in the state. -/
@[simp] theorem State.serving_withFetchWord (s : State) (nbits w : Nat) (a : Agent) (p : List (List Request)) :
    (s.withFetchWord nbits w).serving a p = s.serving a p := rfl

/-- The step after `withFetchWord` runs the table word's operation, for the agent that performs it. -/
theorem step_withFetchWord {nbits w : Nat} {i : Instr} (h : decodeTableWord nbits w = some i) (s : State) :
    step (s.withFetchWord nbits w) = exec i (s.serving (performerOf i) s.program) := by
  have hi : decode (tableWord nbits w) = .ok i := decodeTableWord_eq_some.mp h
  rw [step_of_alone (s.withFetchWord_program nbits w), serve_of_decode_ok hi, State.serving_withFetchWord,
    tableRequest_agent hi]

/-- Settles O59: one clause each for a word that decodes, one that does not, a table word, and no request. -/
theorem stepRunsTheDecodedInstruction : Obligations.StepRunsTheDecodedInstruction := by
  refine ⟨fun s r later i hp hi => ?_, fun s r later why hp hw => ?_, fun s nbits w i hi => ?_,
    fun s hp => step_of_no_request hp⟩
  · exact (step_of_alone hp).trans (serve_of_decode_ok hi s later)
  · exact (step_of_alone hp).trans (serve_of_decode_error hw s later)
  · exact step_withFetchWord hi s

end Sys2Proof.Machine
end

section
/-! SUPPORT. The state of the block (`spec/10_state.md`): the effects an operation can have, each with the guard that
leads to it (`Effect`), what each effect does to the invariant of R37, and the obligations of this family. -/

namespace Sys2Proof.Machine

/-! ### The effects of an operation -/

/-- The registers contradict each other: what raises `InvariantViolation` (R195). -/
def State.disagrees (s : State) : Prop :=
  (s.active = true ∧ s.queue = []) ∨
  (s.active = false ∧ (s.queue ≠ [] ∨ s.emBusy = true ∨ s.donePending = true)) ∨
  (s.emBusy = true ∧ s.donePending = true)

/-- What an operation that answers a next state has done, with the guard of each case. Tied to `exec` by
`effect_of_exec`. -/
inductive Effect (s : State) : Instr → State → Prop
  /-- An enqueue into a transmitting queue (R153). -/
  | append {i : Instr} {f : Frame} (hi : enqueuedFrame i = some f) (hRoom : s.roomFor) (hActive : s.active = true)
      (hQueue : s.queue ≠ []) :
      Effect s i ({ s with queue := s.queue ++ [f] }.record (.enq f)).acknowledge
  /-- An enqueue into an idle queue, which starts the frame (R153, R156). -/
  | startIdle {i : Instr} {f : Frame} (hi : enqueuedFrame i = some f) (hRoom : s.roomFor) (hIdle : s.active = false)
      (hQueue : s.queue = []) (hFree : s.emBusy = false) (hInit : s.initialised = true) :
      Effect s i (({ s with queue := [f], active := true }.record (.enq f)).started f).acknowledge
  /-- `ABORT` of a transmitting queue (R160). -/
  | dropBacklog {front : Frame} {rest : List Frame} (hActive : s.active = true) (hQueue : s.queue = front :: rest) :
      Effect s .abort ({ s with queue := [front] }.record (.abort rest.length)).acknowledge
  /-- `ABORT` of an idle queue (R160). -/
  | dropNothing (hIdle : s.active = false) (hQueue : s.queue = []) :
      Effect s .abort (s.record (.abort 0)).acknowledge
  /-- `COMPLETE` of the only entry (R159). -/
  | completeLast {front : Frame} (hDone : s.donePending = true) (hActive : s.active = true)
      (hQueue : s.queue = [front]) :
      Effect s .complete
        ({ s with queue := [], donePending := false, active := false }.record (.complete front))
  /-- `COMPLETE` with an entry behind the front one, which it starts (R159, R156). -/
  | completeNext {front second : Frame} {rest : List Frame} (hDone : s.donePending = true)
      (hActive : s.active = true) (hQueue : s.queue = front :: second :: rest) (hFree : s.emBusy = false) :
      Effect s .complete
        (({ s with queue := second :: rest, donePending := false }.record (.complete front)).started second)
  /-- `COMPLETE` without a notification (R161). -/
  | completeNothing (hDone : s.donePending = false) : Effect s .complete s
  /-- `EMIT_DONE` (R158). -/
  | emitDone (hBusy : s.emBusy = true) : Effect s .emitDone s.emissionDone
  /-- `START` on its own, which only happens inside another operation (R156, R205). -/
  | start {f : Frame} (hInside : s.agent = .inside) (hFree : s.emBusy = false) : Effect s (.start f) (s.started f)
  /-- Taking the exception (R195, R196). -/
  | raise {i : Instr} (hi : producerOp i = true ∨ i = .complete ∨ ∃ f, i = .start f)
      (hCause : s.agent = .inside ∨ s.disagrees) : Effect s i s.raiseInvariantViolation
  /-- `RESET` (R230). -/
  | reset : Effect s .reset s.toReset
  /-- `INIT` (R231). -/
  | init (hInit : s.initialised = false) (hQuiet : s.quiet)
      (hWf : (loadedCfg s.par).wellFormed s.par.durW = true) :
      Effect s .init { s with cfg := loadedCfg s.par, initialised := true }
  /-- `NOP` (R162). -/
  | nop : Effect s .nop s
  /-- A pure function, which drives output ports only (R8). -/
  | drive {i : Instr} {o : Outputs} (hi : pureOp i = true) : Effect s i { s with out := o }

/-- An operation that enqueues a frame is a producer's (R205). -/
theorem producerOp_of_enqueuedFrame {i : Instr} {f : Frame} (h : enqueuedFrame i = some f) : producerOp i = true := by
  cases i <;> simp_all [enqueuedFrame, producerOp]

/-- What makes an enqueue raise is a disagreement of the registers (R153, R156). -/
theorem disagrees_of_enqueue_raised {f : Frame} {s : State} (h : enqueue f s = .error .raised) : s.disagrees := by
  rcases enqueue_raised.mp h with h | ⟨hIdle, hQueue | hBusy⟩
  · exact .inl h
  · exact .inr (.inl ⟨hIdle, .inl hQueue⟩)
  · exact .inr (.inl ⟨hIdle, .inr (.inl hBusy)⟩)

/-- What makes `ABORT` raise is a disagreement of the registers (R160). -/
theorem disagrees_of_abortBacklog_raised {s : State} (h : abortBacklog s = .error .raised) : s.disagrees := by
  rcases abortBacklog_raised.mp h with h | ⟨hIdle, hQueue⟩
  · exact .inl h
  · exact .inr (.inl ⟨hIdle, .inl hQueue⟩)

/-- What makes `COMPLETE` of a notification raise is a disagreement of the registers (R159). -/
theorem disagrees_of_completeFront_raised {s : State} (hDone : s.donePending = true)
    (h : completeFront s = .error .raised) : s.disagrees := by
  rcases hActive : s.active
  · exact .inr (.inl ⟨hActive, .inr (.inr hDone)⟩)
  · rcases completeFront_raised.mp h with hIdle | hQueue | ⟨-, hBusy⟩
    · simp [hActive] at hIdle
    · exact .inl ⟨hActive, hQueue⟩
    · exact .inr (.inr ⟨hBusy, hDone⟩)

/-- Every next state of every operation is one of the effects. -/
theorem effect_of_exec {i : Instr} {s t : State} (h : exec i s = .next t) : Effect s i t := by
  rcases exec_next_cases h with
    (⟨f, hi, -, -, hRoom, hOk | ⟨hErr, rfl⟩⟩ | ⟨rfl, -, -, hOk | ⟨hErr, rfl⟩⟩ |
      ⟨rfl, -, -, ⟨hDone, rfl⟩ | ⟨hDone, hOk | ⟨hErr, rfl⟩⟩⟩ | ⟨rfl, -, -, hBusy, rfl⟩ |
      ⟨f, rfl, hInside, -, ⟨hFree, -, rfl⟩ | ⟨-, rfl⟩⟩) |
    (⟨rfl, -, -, rfl⟩ | ⟨rfl, -, -, hInit, hQuiet, hWf, rfl⟩ | ⟨rfl, -, -, rfl⟩ | ⟨hi, o, rfl, -⟩)
  · rcases enqueue_ok.mp hOk with ⟨hActive, hQueue, rfl⟩ | ⟨hIdle, hQueue, hFree, hInit, rfl⟩
    · exact .append hi hRoom hActive hQueue
    · exact .startIdle hi hRoom hIdle hQueue hFree hInit
  · exact .raise (.inl (producerOp_of_enqueuedFrame hi)) (.inr (disagrees_of_enqueue_raised hErr))
  · rcases abortBacklog_ok.mp hOk with ⟨front, rest, hActive, hQueue, rfl⟩ | ⟨hIdle, hQueue, rfl⟩
    · exact .dropBacklog hActive hQueue
    · exact .dropNothing hIdle hQueue
  · exact .raise (.inl rfl) (.inr (disagrees_of_abortBacklog_raised hErr))
  · exact .completeNothing hDone
  · rcases completeFront_ok.mp hOk with
      ⟨front, hActive, hQueue, rfl⟩ | ⟨front, second, rest, hActive, hQueue, hFree, -, rfl⟩
    · exact .completeLast hDone hActive hQueue
    · exact .completeNext hDone hActive hQueue hFree
  · exact .raise (.inr (.inl rfl)) (.inr (disagrees_of_completeFront_raised hDone hErr))
  · exact .emitDone hBusy
  · exact .start hInside hFree
  · exact .raise (.inr (.inr ⟨f, rfl⟩)) (.inl hInside)
  · exact .reset
  · exact .init hInit hQuiet hWf
  · exact .nop
  · exact .drive hi

/-! ### The invariant (R37): what it says in each mode of the block -/

section
variable {s : State}

/-- Idle: nothing is queued, emitted or pending. -/
theorem State.Inv.quiet_of_idle (h : s.Inv) (hIdle : s.active = false) : s.quiet := by
  obtain ⟨hFree, hDone⟩ := h.i3 hIdle
  have hQueue : s.queue = [] := by simpa [hIdle] using h.i1
  exact ⟨hQueue, hIdle, hFree, hDone⟩

/-- Emitting: the train is that of the front entry and no notification is pending. -/
theorem State.Inv.of_emBusy (h : s.Inv) (hBusy : s.emBusy = true) :
    s.active = true ∧ s.donePending = false ∧ ∃ rest, s.queue = s.emFrame :: rest := by
  have hActive : s.active = true := by
    by_contra hIdle
    simp [(h.i3 (by simpa using hIdle)).1] at hBusy
  rcases h.i2 hActive with ⟨-, hFront, hDone⟩ | ⟨hFree, -⟩
  · exact ⟨hActive, hDone, List.head?_eq_some_iff.mp hFront⟩
  · simp [hFree] at hBusy

/-- The invariant excludes every disagreement of the registers (R195). -/
theorem State.Inv.not_disagrees (h : s.Inv) : ¬ s.disagrees := by
  rintro (⟨hActive, hQueue⟩ | ⟨hIdle, hWork⟩ | ⟨hBusy, hDone⟩)
  · exact h.i1.mp hActive hQueue
  · obtain ⟨hQueue, -, hFree, hDone⟩ := h.quiet_of_idle hIdle
    simp [hQueue, hFree, hDone] at hWork
  · simp [h.i4 hDone] at hBusy

/-! ### What each effect does to the invariant -/

/-- The invariant speaks of the block and the parameters only. -/
theorem State.Inv.of_sameBlock {t : State} (h : s.Inv) (hBlock : s.sameBlock t) (hPar : t.par = s.par) : t.Inv := by
  obtain ⟨hQueue, hActive, hFault, hDone, hBusy, hFrame, hInit, hCfg, hLog⟩ := hBlock
  obtain ⟨healthy, i1, i2, i3, i4, i7, kept, started, emitted, before, configured⟩ := h
  constructor <;> simpa only [hQueue, hActive, hFault, hDone, hBusy, hFrame, hInit, hCfg, hLog, hPar]

/-- `p_ack` is an output port, of which the invariant does not speak. -/
theorem State.Inv.acknowledge (h : s.Inv) : s.acknowledge.Inv :=
  h.of_sameBlock (s.sameBlock_withOut _) rfl

/-- Taking a request off the ports leaves the block as it was. -/
theorem State.Inv.serving (h : s.Inv) (a : Agent) (p : List (List Request)) : (s.serving a p).Inv :=
  h.of_sameBlock ⟨rfl, rfl, rfl, rfl, rfl, rfl, rfl, rfl, rfl⟩ rfl

/-- A step without a request leaves the block as it was (R162). -/
theorem State.Inv.idling (h : s.Inv) : s.idling.Inv :=
  h.of_sameBlock ⟨rfl, rfl, rfl, rfl, rfl, rfl, rfl, rfl, rfl⟩ rfl

/-- `RESET` establishes the invariant from any state (R40). -/
theorem State.inv_toReset (s : State) : s.toReset.Inv := by
  constructor <;> simp

/-- An appended frame is one more survivor behind the queue; the front entry, and with it the starts, stay. -/
theorem State.Inv.append (h : s.Inv) (f : Frame) (hRoom : s.roomFor) (hActive : s.active = true)
    (hQueue : s.queue ≠ []) : ({ s with queue := s.queue ++ [f] }.record (.enq f)).Inv := by
  obtain ⟨front, rest, hq⟩ := List.exists_cons_of_ne_nil hQueue
  constructor
  case healthy => simpa using h.healthy
  case i1 => simp [hActive]
  case i2 => simpa [hq] using h.i2
  case i3 => simp [hActive]
  case i4 => simpa using h.i4
  case i7 => simpa [State.roomFor, Nat.succ_le_iff] using hRoom
  case historyKept => simp [h.historyKept]
  case historyStarted => simp [h.historyStarted, hq]
  case historyEmitted => simp [h.historyEmitted, hq]
  case beforeInit => exact fun hInit => absurd (h.beforeInit hInit) hQueue
  case configured => simpa using h.configured

/-- A frame enqueued into the idle queue is its only survivor and the one train in flight. -/
theorem State.Inv.startIdle (h : s.Inv) (f : Frame) (hRoom : s.roomFor) (hIdle : s.active = false)
    (hInit : s.initialised = true) : (({ s with queue := [f], active := true }.record (.enq f)).started f).Inv := by
  obtain ⟨hQueue, -, hFree, hDone⟩ := h.quiet_of_idle hIdle
  constructor
  case healthy => simpa using h.healthy
  case i1 => simp
  case i2 => simp [hDone]
  case i3 => simp
  case i4 => simp [hDone]
  case i7 => simpa [State.roomFor, hQueue, Nat.succ_le_iff] using hRoom
  case historyKept =>
    rw [State.started_log, survivingFrames_start, completedFrames_start]
    simp [h.historyKept, hQueue]
  case historyStarted =>
    rw [State.started_log, startedFrames_start, completedFrames_start]
    simp [h.historyStarted, hQueue]
  case historyEmitted =>
    rw [State.started_log, emittedFrames_start, completedFrames_start]
    simp [h.historyEmitted, hDone]
  case beforeInit => simp [hInit]
  case configured => simpa using h.configured

/-- `ABORT` strikes out exactly the survivors behind the front entry. -/
theorem State.Inv.dropBacklog (h : s.Inv) {front : Frame} {rest : List Frame} (hActive : s.active = true)
    (hQueue : s.queue = front :: rest) : ({ s with queue := [front] }.record (.abort rest.length)).Inv := by
  constructor
  case healthy => simpa using h.healthy
  case i1 => simp [hActive]
  case i2 => simpa [hQueue] using h.i2
  case i3 => simp [hActive]
  case i4 => simpa using h.i4
  case i7 => exact fun d hd => le_trans (by simp [hQueue]) (h.i7 d hd)
  case historyKept =>
    rw [State.record_log, survivingFrames_abort, completedFrames_abort, h.historyKept, hQueue, List.append_cons,
      List.length_append, Nat.add_sub_cancel, List.take_left]
    rfl
  case historyStarted => simp [h.historyStarted, hQueue]
  case historyEmitted => simp [h.historyEmitted, hQueue]
  case beforeInit => exact fun hInit => absurd (h.beforeInit hInit) (by simp [hQueue])
  case configured => simpa using h.configured

/-- `ABORT` of an idle queue strikes out nothing. -/
theorem State.Inv.dropNothing (h : s.Inv) : (s.record (.abort 0)).Inv := by
  obtain ⟨healthy, i1, i2, i3, i4, i7, kept, started, emitted, before, configured⟩ := h
  constructor <;> simpa

/-- `COMPLETE` of the only entry makes the block idle with every survivor completed. -/
theorem State.Inv.completeLast (h : s.Inv) {front : Frame} (hDone : s.donePending = true) (hQueue : s.queue = [front]) :
    ({ s with queue := [], donePending := false, active := false }.record (.complete front)).Inv := by
  constructor
  case healthy => simpa using h.healthy
  case i1 => simp
  case i2 => simp
  case i3 => simpa using h.i4 hDone
  case i4 => simp
  case i7 => simp
  case historyKept => simp [h.historyKept, hQueue]
  case historyStarted => simp [h.historyStarted, hQueue]
  case historyEmitted => simp [h.historyEmitted, hQueue, hDone]
  case beforeInit => simp
  case configured => simpa using h.configured

/-- `COMPLETE` with an entry behind the front one moves the front to the completed frames and starts the next. -/
theorem State.Inv.completeNext (h : s.Inv) {front second : Frame} {rest : List Frame} (hDone : s.donePending = true)
    (hActive : s.active = true) (hQueue : s.queue = front :: second :: rest) :
    (({ s with queue := second :: rest, donePending := false }.record (.complete front)).started second).Inv := by
  constructor
  case healthy => simpa using h.healthy
  case i1 => simp [hActive]
  case i2 => simp
  case i3 => simp [hActive]
  case i4 => simp
  case i7 => exact fun d hd => le_trans (by simp [hQueue]) (h.i7 d hd)
  case historyKept =>
    rw [State.started_log, survivingFrames_start, completedFrames_start]
    simp [h.historyKept, hQueue]
  case historyStarted =>
    rw [State.started_log, startedFrames_start, completedFrames_start]
    simp [h.historyStarted, hQueue]
  case historyEmitted =>
    rw [State.started_log, emittedFrames_start, completedFrames_start]
    simp [h.historyEmitted, hQueue, hDone]
  case beforeInit => exact fun hInit => absurd (h.beforeInit hInit) (by simp [hQueue])
  case configured => simpa using h.configured

/-- `EMIT_DONE` adds the front entry, whose train it was, to the emitted frames. -/
theorem State.Inv.emissionDone (h : s.Inv) (hBusy : s.emBusy = true) : s.emissionDone.Inv := by
  obtain ⟨hActive, hDone, rest, hQueue⟩ := h.of_emBusy hBusy
  constructor
  case healthy => simpa using h.healthy
  case i1 => simpa using h.i1
  case i2 => simp
  case i3 => simp [hActive]
  case i4 => simp
  case i7 => simpa using h.i7
  case historyKept => simpa using h.historyKept
  case historyStarted => simpa using h.historyStarted
  case historyEmitted => simp [h.historyEmitted, hQueue, hDone]
  case beforeInit => simpa using h.beforeInit
  case configured => simpa using h.configured

/-- `INIT` writes the configuration of the invariant and nothing else (R231). -/
theorem State.Inv.init (h : s.Inv) (hWf : (loadedCfg s.par).wellFormed s.par.durW = true) :
    State.Inv { s with cfg := loadedCfg s.par, initialised := true } := by
  obtain ⟨healthy, i1, i2, i3, i4, i7, kept, started, emitted, -, -⟩ := h
  exact ⟨healthy, i1, i2, i3, i4, i7, kept, started, emitted, by simp, fun _ => ⟨rfl, hWf⟩⟩

end

/-- Every effect keeps the invariant, but for one inside another operation (R37). -/
theorem Effect.inv {i : Instr} {s t : State} (he : Effect s i t) (h : s.Inv) (hOutside : s.agent ≠ .inside) :
    t.Inv := by
  cases he with
  | append hi hRoom hActive hQueue => exact (h.append _ hRoom hActive hQueue).acknowledge
  | startIdle hi hRoom hIdle hQueue hFree hInit => exact (h.startIdle _ hRoom hIdle hInit).acknowledge
  | dropBacklog hActive hQueue => exact (h.dropBacklog hActive hQueue).acknowledge
  | dropNothing hIdle hQueue => exact h.dropNothing.acknowledge
  | completeLast hDone hActive hQueue => exact h.completeLast hDone hQueue
  | completeNext hDone hActive hQueue hFree => exact h.completeNext hDone hActive hQueue
  | completeNothing hDone => exact h
  | emitDone hBusy => exact h.emissionDone hBusy
  | start hInside hFree => exact absurd hInside hOutside
  | raise hi hCause => exact absurd hCause (by simp [hOutside, h.not_disagrees])
  | reset => exact s.inv_toReset
  | init hInit hQuiet hWf => exact h.init hWf
  | nop => exact h
  | drive hi => exact h.of_sameBlock (s.sameBlock_withOut _) rfl

/-- Settles O51: the step is idle, or serves an operation, outside the context `inside`, whose effect keeps `Inv`. -/
theorem everyStepKeepsTheInvariant : Obligations.EveryStepKeepsTheInvariant := by
  intro s t h hStep
  rcases step_next_cases hStep with rfl | ⟨r, i, p, -, -, -, hExec⟩
  · exact h.idling
  · exact (effect_of_exec hExec).inv (h.serving r.agent p) (by simp)

/-- Settles O50: the reset state is what `RESET` makes of itself. -/
theorem resetMeetsTheInvariant : Obligations.ResetMeetsTheInvariant := State.reset.inv_toReset

/-! ### What follows from the invariant -/

/-- Settles O53: the histories of the invariant, and the front entry being there exactly while `active`. -/
theorem startsAreFifoAndOneInFlight : Obligations.StartsAreFifoAndOneInFlight := by
  intro s h
  have hFront : (s.queue.take 1).length = if s.active then 1 else 0 := by
    cases hActive : s.active with
    | false => simp [(h.quiet_of_idle hActive).1]
    | true =>
      obtain ⟨front, rest, hQueue⟩ := List.exists_cons_of_ne_nil (h.i1.mp hActive)
      simp [hQueue]
  refine ⟨?_, ?_, ?_, ?_, ?_, ?_⟩
  · rw [h.historyStarted, List.length_append, hFront]
  · rw [h.historyStarted, h.historyKept]
    exact (List.prefix_append_right_inj _).mpr (List.take_prefix 1 s.queue)
  · rw [h.historyEmitted]
    exact List.prefix_append _ _
  · rw [h.historyEmitted, h.historyStarted, List.prefix_append_right_inj]
    split
    · exact List.prefix_rfl
    · exact List.nil_prefix
  · intro hIdle
    obtain ⟨hQueue, -⟩ := h.quiet_of_idle hIdle
    simp [h.historyKept, hQueue]
  · simp [h.historyKept]

/-! ### What the operations write -/

/-- Settles O32: of the effects only a completion and `RESET` take the front entry away; those not named below leave
the queue as it is. -/
theorem onlyACompletionRemovesTheFront : Obligations.OnlyACompletionRemovesTheFront := by
  intro i s t h
  cases effect_of_exec h with
  | append hi hRoom hActive hQueue =>
    exact ⟨.inl (List.head?_append_of_ne_nil _ hQueue), .inr (.inr ⟨_, hi, rfl⟩)⟩
  | startIdle hi hRoom hIdle hQueue hFree hInit =>
    exact ⟨.inr (.inl hQueue), .inr (.inr ⟨_, hi, by simp [hQueue]⟩)⟩
  | dropBacklog hActive hQueue => exact ⟨.inl (by simp [hQueue]), .inl (by simp [hQueue])⟩
  | completeLast hDone hActive hQueue => exact ⟨.inr (.inr (.inl ⟨rfl, hDone⟩)), .inr (.inl (by simp [hQueue]))⟩
  | completeNext hDone hActive hQueue hFree =>
    exact ⟨.inr (.inr (.inl ⟨rfl, hDone⟩)), .inr (.inl (by simp [hQueue]))⟩
  | reset => exact ⟨.inr (.inr (.inr rfl)), .inl List.nil_prefix⟩
  | _ => exact ⟨.inl rfl, .inl List.prefix_rfl⟩

/-- Settles O34: of each effect, the flags it writes. Only `startIdle` and `raise` are reached by several operations,
and there the effect's own hypothesis says which. -/
theorem flagsAreWrittenOnlyByTheirOperations : Obligations.FlagsAreWrittenOnlyByTheirOperations := by
  intro i s t h
  cases effect_of_exec h with
  | startIdle hi hRoom hIdle hQueue hFree hInit => simp +contextual [hi]
  | raise hi hCause => simp +contextual [hi]
  | _ => simp +contextual

/-- Only `INIT` of an uninitialised block and `RESET` write the configuration (R34). -/
theorem Effect.cfg {i : Instr} {s t : State} (he : Effect s i t) :
    t.cfg = s.cfg ∨ (i = .init ∧ s.initialised = false) ∨ (i = .reset ∧ t.initialised = false) := by
  cases he with
  | init hInit hQuiet hWf => exact .inr (.inl ⟨rfl, hInit⟩)
  | reset => exact .inr (.inr ⟨rfl, rfl⟩)
  | _ => exact .inl rfl

/-- No effect writes a parameter (R6). -/
theorem Effect.par {i : Instr} {s t : State} (he : Effect s i t) : t.par = s.par := by
  cases he <;> rfl

/-- Settles O35: by `Effect.cfg` and `Effect.par`, through the operation a step serves. -/
theorem configurationIsFrozen : Obligations.ConfigurationIsFrozen := by
  refine ⟨fun i s t h hNe => ?_, fun s t hStep hs ht => ?_, fun s t hStep => ?_⟩
  · rcases (effect_of_exec h).cfg with hEq | hInit | ⟨hReset, -⟩
    · exact absurd hEq hNe
    · exact .inl hInit
    · exact .inr hReset
  · rcases step_next_cases hStep with rfl | ⟨r, i, p, -, -, -, hExec⟩
    · rfl
    · rcases (effect_of_exec hExec).cfg with hEq | ⟨-, hInit⟩ | ⟨-, hReset⟩
      · exact hEq
      · exact absurd hs (by simpa using hInit)
      · exact absurd ht (by simpa using hReset)
  · rcases step_next_cases hStep with rfl | ⟨r, i, p, -, -, -, hExec⟩
    · rfl
    · exact (effect_of_exec hExec).par

/-! ### Before `INIT` (R44) -/

/-- A condition that fails makes `require` refuse. -/
theorem require_refused {cs : List (Bool × Refusal)} {why : Refusal} (h : (false, why) ∈ cs) (go : Result) :
    ∃ r, require cs go = .refused r := by
  induction cs with
  | nil => simp at h
  | cons c cs ih =>
    obtain ⟨ok, r⟩ := c
    cases ok with
    | false => exact ⟨r, rfl⟩
    | true => simpa [require] using ih (by simpa using h)

section
variable {s : State} (hInit : s.initialised = false)
include hInit

/-- The condition of R44 fails before `INIT`. -/
theorem notInitialised_mem_running : (false, .notInitialised) ∈ running s := by simp [running, hInit]

/-- No `SEND` before `INIT`. -/
theorem sendCommand_refused_of_uninitialised (c : Command) : ∃ why, sendCommand c s = .refused why :=
  require_refused (why := .notInitialised) (by simp [notInitialised_mem_running hInit]) _

/-- The operations of R44 have no step before `INIT`. -/
theorem exec_refused_of_uninitialised {i : Instr}
    (hi : producerOp i = true ∨ i = .complete ∨ ∃ f, i = .toSignal f) : ∃ why, exec i s = .refused why := by
  have hMem := notInitialised_mem_running hInit
  rcases hi with hi | rfl | ⟨f, rfl⟩
  · cases i with
    | shock id ch n => exact sendCommand_refused_of_uninitialised hInit _
    | vibrate id ch n => exact sendCommand_refused_of_uninitialised hInit _
    | beep id ch n => exact sendCommand_refused_of_uninitialised hInit _
    | light id ch n => exact sendCommand_refused_of_uninitialised hInit _
    | send id ch ac n =>
      rcases hc : Command.ofPorts id ch ac n with _ | c
      · exact ⟨_, exec_send_notACommand hc s⟩
      · simpa [exec, execSend, hc] using sendCommand_refused_of_uninitialised hInit c
    | enq f => exact require_refused (why := .notInitialised) (by simp [hMem]) _
    | abort => exact require_refused (why := .notInitialised) (by simp [hMem]) _
    | _ => cases hi
  · exact require_refused (why := .notInitialised) (by simp [hMem]) _
  · exact require_refused (why := .notInitialised) (by simp [hInit]) _

end

/-- Settles O49: the enabling condition of R44, and the codec's meanings, which read no part of it. -/
theorem nothingQueuedBeforeInit : Obligations.NothingQueuedBeforeInit := by
  refine ⟨fun i s hInit hi => exec_refused_of_uninitialised hInit hi, ?_⟩
  rintro i s b (⟨id, ch, ac, n, rfl⟩ | ⟨bits, rfl⟩ | ⟨b0, b1, b2, b3, rfl⟩) t h
  · refine require_program h fun h => ?_
    split at h
    · cases h; rfl
    · cases h
  · refine require_program h fun h => ?_
    split at h
    · cases h; rfl
    · cases h; rfl
  · exact require_program h fun h => by cases h; rfl

end Sys2Proof.Machine
end

section
/-! SUPPORT. Requests at the same time (`spec/20_memory.md`): which request of a group a step serves, the next state of
`ENQ` and `COMPLETE` where they are enabled, and the obligations of this family. -/

namespace Sys2Proof.Machine

/-! ### `ABORT` twice (R54) -/

/-- Settles O19: the first `ABORT` leaves at most the front entry, so the second one drops nothing. -/
theorem abortIsIdempotent : Obligations.AbortIsIdempotent := by
  intro s t h hHealthy
  obtain ⟨hProducer, hExposed, ⟨-, hInit⟩, hOk | ⟨-, rfl⟩⟩ := exec_abort_next.mp h
  · rcases abortBacklog_ok.mp hOk with ⟨front, rest, hActive, -, rfl⟩ | ⟨hIdle, hQueue, rfl⟩
    · refine exec_abort_next.mpr ⟨hProducer, hExposed, ⟨hHealthy, hInit⟩, .inl (abortBacklog_ok.mpr ?_)⟩
      exact .inl ⟨front, [], hActive, rfl, rfl⟩
    · refine exec_abort_next.mpr ⟨hProducer, hExposed, ⟨hHealthy, hInit⟩, .inl (abortBacklog_ok.mpr ?_)⟩
      exact .inr ⟨hIdle, hQueue, rfl⟩
  · cases hHealthy

/-! ### One of several requests (R56, R57) -/

/-- A group with a request left in it stays in front of the later ones. -/
theorem waiting_of_ne_nil {left : List Request} (h : left ≠ []) (later : List (List Request)) :
    waiting left later = left :: later := by
  cases left with
  | nil => exact absurd rfl h
  | cons r rs => rfl

/-- Of two or more requests a step serves one of the candidates and leaves the others at the ports. -/
theorem step_of_several {s : State} {r q : Request} {qs : List Request} {later : List (List Request)}
    (h : s.program = (r :: q :: qs) :: later) :
    ∃ k ∈ candidates s (r :: q :: qs), ∃ u, (r :: q :: qs)[k]? = some u ∧
      step s = serve s u ((r :: q :: qs).eraseIdx k :: later) := by
  obtain ⟨k, hk, hServed, hLeft⟩ := arbitrate_spec s r q qs
  have hSome : (r :: q :: qs).eraseIdx k ≠ [] := by simp
  refine ⟨k, hk, _, hServed, ?_⟩
  simp only [step, h, presented_cons, hLeft, waiting_of_ne_nil hSome]

/-- Whether a request has a step does not depend on the requests left behind it. -/
theorem exists_serve_next {s t : State} {r : Request} {p : List (List Request)} (h : serve s r p = .next t)
    (p' : List (List Request)) : ∃ t', serve s r p' = .next t' := by
  obtain ⟨i, hi, hExec⟩ := serve_next.mp h
  exact ⟨_, serve_next.mpr ⟨i, hi, exec_program p' hExec⟩⟩

/-- `enabledNow`, which tries the request with none behind it, speaks for every rest of the program. -/
theorem enabledNow_iff {s : State} {r : Request} (p : List (List Request)) :
    enabledNow s r = true ↔ ∃ t, serve s r p = .next t := by
  have hNow : enabledNow s r = true ↔ ∃ t, serve s r [] = .next t := by
    unfold enabledNow
    cases serve s r [] <;> simp
  exact hNow.trans ⟨fun ⟨_, h⟩ => exists_serve_next h p, fun ⟨_, h⟩ => exists_serve_next h []⟩

/-- Settles O60: the candidates are first requests of their agents (`candidates_first`), and only enabled ones once one
of those is enabled (`candidates_enabled`). -/
theorem oneOfSimultaneousRequestsIsServed : Obligations.OneOfSimultaneousRequestsIsServed := by
  constructor
  · intro s t group later hProgram hTwo hStep
    obtain ⟨r, q, qs, rfl⟩ : ∃ r q qs, group = r :: q :: qs := by
      match group, hTwo with
      | r :: q :: qs, _ => exact ⟨r, q, qs, rfl⟩
    obtain ⟨k, hk, u, hu, hServe⟩ := step_of_several hProgram
    obtain ⟨i, hi, hExec⟩ := serve_next.mp (hServe.symm.trans hStep)
    exact ⟨k, u, i, hu, hi, (firstOfAgent_iff hu).mp (candidates_first hk).2, hExec⟩
  · intro s group later k r i t hProgram hr hFirst hi hExec
    have hServe : serve s r later = .next t := serve_next.mpr ⟨i, hi, hExec⟩
    match group with
    | [] => simp at hr
    | [q] =>
      obtain ⟨-, rfl⟩ : k = 0 ∧ q = r := by simpa [List.getElem?_singleton] using hr
      exact ⟨t, (step_of_alone hProgram).trans hServe⟩
    | q :: q' :: qs =>
      obtain ⟨j, hj, u, hu, hStep⟩ := step_of_several hProgram
      obtain ⟨v, hv, hEnabled⟩ :=
        candidates_enabled hr ((firstOfAgent_iff hr).mpr hFirst) ((enabledNow_iff later).mpr ⟨t, hServe⟩) hj
      obtain rfl : u = v := Option.some.inj (hu.symm.trans hv)
      rw [hStep]
      exact (enabledNow_iff _).mp hEnabled

/-! ### `ENQ` and `COMPLETE` where they are enabled (R153, R159) -/

/-- The next state of an `ENQ` into a transmitting queue. -/
def State.appended (s : State) (f : Frame) : State :=
  ({ s with queue := s.queue ++ [f] }.record (.enq f)).acknowledge

/-- The next state of an `ENQ` into an idle queue. -/
def State.startedAlone (s : State) (f : Frame) : State :=
  (({ s with queue := [f], active := true }.record (.enq f)).started f).acknowledge

/-- The next state of a `COMPLETE` of the only entry, `front`. -/
def State.completedLast (s : State) (front : Frame) : State :=
  { s with queue := [], donePending := false, active := false }.record (.complete front)

/-- The next state of a `COMPLETE` of `front` with `second :: rest` behind it. -/
def State.completedNext (s : State) (front second : Frame) (rest : List Frame) : State :=
  ({ s with queue := second :: rest, donePending := false }.record (.complete front)).started second

@[simp] theorem andThen_next (t : State) (k : State → Result) : andThen (.next t) k = k t := rfl

section
variable {s : State} (hRun : s.operational)
include hRun

section
variable {p : Nat} (hp : p < s.par.nprod)
include hp

theorem exec_enq_transmitting (f : Frame) (hRoom : s.roomFor) (hActive : s.active = true) (hQueue : s.queue ≠ []) :
    exec (.enq f) (s.by (.producer p)) = .next ((s.by (.producer p)).appended f) :=
  (exec_enqueuing_next rfl).mpr
    ⟨⟨p, rfl, hp⟩, hRun, hRoom, .inl (enqueue_ok.mpr (.inl ⟨hActive, hQueue, rfl⟩))⟩

theorem exec_enq_idle (f : Frame) (hRoom : s.roomFor) (hIdle : s.active = false) (hQueue : s.queue = [])
    (hFree : s.emBusy = false) :
    exec (.enq f) (s.by (.producer p)) = .next ((s.by (.producer p)).startedAlone f) :=
  (exec_enqueuing_next rfl).mpr
    ⟨⟨p, rfl, hp⟩, hRun, hRoom, .inl (enqueue_ok.mpr (.inr ⟨hIdle, hQueue, hFree, hRun.2, rfl⟩))⟩

variable {q : Nat} (hq : q < s.par.nprod) (f g : Frame)
include hq

/-- Two `ENQ`s into a transmitting queue with room for both. -/
theorem exec_enq_enq_transmitting (hRoom : ∀ d, s.par.qdepth = some d → s.queue.length + 1 < d)
    (hActive : s.active = true) (hQueue : s.queue ≠ []) :
    andThen (exec (.enq f) (s.by (.producer p))) (fun v => exec (.enq g) (v.by (.producer q))) =
      .next ((((s.by (.producer p)).appended f).by (.producer q)).appended g) := by
  rw [exec_enq_transmitting hRun hp f (fun d hd => Nat.lt_of_succ_lt (hRoom d hd)) hActive hQueue, andThen_next]
  refine exec_enq_transmitting (s := (s.by (.producer p)).appended f) hRun hq g (fun d hd => ?_) hActive
    (List.append_ne_nil_of_left_ne_nil hQueue [f])
  simpa [State.appended] using hRoom d hd

/-- Two `ENQ`s into an idle queue with room for both: the first starts, the second waits behind it. -/
theorem exec_enq_enq_idle (hRoom : ∀ d, s.par.qdepth = some d → 1 < d) (hIdle : s.active = false)
    (hQueue : s.queue = []) (hFree : s.emBusy = false) :
    andThen (exec (.enq f) (s.by (.producer p))) (fun v => exec (.enq g) (v.by (.producer q))) =
      .next ((((s.by (.producer p)).startedAlone f).by (.producer q)).appended g) := by
  have hOne : s.roomFor := fun d hd => by simpa [hQueue] using Nat.zero_lt_of_lt (hRoom d hd)
  rw [exec_enq_idle hRun hp f hOne hIdle hQueue hFree, andThen_next]
  exact exec_enq_transmitting (s := (s.by (.producer p)).startedAlone f) hRun hq g hRoom rfl (List.cons_ne_nil f [])

end

section
variable (hActive : s.active = true) (hDone : s.donePending = true)
include hActive hDone

theorem exec_complete_last {front : Frame} (hQueue : s.queue = [front]) :
    exec .complete (s.by .completion) = .next ((s.by .completion).completedLast front) :=
  exec_complete_next.mpr
    ⟨rfl, hRun, .inr ⟨hDone, .inl (completeFront_ok.mpr (.inl ⟨front, hActive, hQueue, rfl⟩))⟩⟩

theorem exec_complete_more {front second : Frame} {rest : List Frame} (hFree : s.emBusy = false)
    (hQueue : s.queue = front :: second :: rest) :
    exec .complete (s.by .completion) = .next ((s.by .completion).completedNext front second rest) :=
  exec_complete_next.mpr
    ⟨rfl, hRun, .inr ⟨hDone, .inl (completeFront_ok.mpr
      (.inr ⟨front, second, rest, hActive, hQueue, hFree, hRun.2, rfl⟩))⟩⟩

variable {p : Nat} (hp : p < s.par.nprod) (f : Frame) (hRoom : s.roomFor) (hFree : s.emBusy = false)
include hp hRoom hFree

/-- `ENQ`, then `COMPLETE`: the entry behind the front one is started, which is the new frame if there was no other. -/
theorem exec_enq_complete {front second : Frame} {rest rest' : List Frame} (hQueue : s.queue = front :: rest)
    (hNext : rest ++ [f] = second :: rest') :
    andThen (exec (.enq f) (s.by (.producer p))) (fun v => exec .complete (v.by .completion)) =
      .next ((((s.by (.producer p)).appended f).by .completion).completedNext front second rest') := by
  rw [exec_enq_transmitting hRun hp f hRoom hActive (by simp [hQueue]), andThen_next]
  exact exec_complete_more (s := (s.by (.producer p)).appended f) hRun hActive hDone hFree
    (by simp [State.appended, hQueue, hNext])

/-- `COMPLETE` of the only entry, then `ENQ`: the queue is idle in between and the new frame is started. -/
theorem exec_completeLast_enq {front : Frame} (hQueue : s.queue = [front]) :
    andThen (exec .complete (s.by .completion)) (fun v => exec (.enq f) (v.by (.producer p))) =
      .next ((((s.by .completion).completedLast front).by (.producer p)).startedAlone f) := by
  have hShorter : ((s.by .completion).completedLast front).roomFor := fun d hd => Nat.zero_lt_of_lt (hRoom d hd)
  rw [exec_complete_last hRun hActive hDone hQueue, andThen_next]
  exact exec_enq_idle (s := (s.by .completion).completedLast front) hRun hp f hShorter rfl rfl hFree

/-- `COMPLETE` with an entry behind the front one, then `ENQ`: that entry is started and the new frame appended. -/
theorem exec_completeNext_enq {front second : Frame} {rest : List Frame} (hQueue : s.queue = front :: second :: rest) :
    andThen (exec .complete (s.by .completion)) (fun v => exec (.enq f) (v.by (.producer p))) =
      .next ((((s.by .completion).completedNext front second rest).by (.producer p)).appended f) := by
  have hShorter : ((s.by .completion).completedNext front second rest).roomFor := fun d hd => by
    have hLess : rest.length + 1 + 1 < d := by simpa [hQueue] using hRoom d hd
    exact Nat.lt_of_succ_lt hLess
  rw [exec_complete_more hRun hActive hDone hFree hQueue, andThen_next]
  exact exec_enq_transmitting (s := (s.by .completion).completedNext front second rest) hRun hp f hShorter hActive
    (List.cons_ne_nil second rest)

end

end

/-- Settles O37: the two orders run to the states named above, which are then compared. In the first clause the frame
that `COMPLETE` starts is the new one exactly if the front entry was alone. -/
theorem enqueueAndCompleteCommute : Obligations.EnqueueAndCompleteCommute := by
  refine ⟨fun s f p hp hRun hRoom hQueue hActive hDone hFree => ?_,
    fun s f g p q hp hq hRun hRoom hQueue hActive => ?_, fun s f g p q hp hq hRun hRoom hQueue hIdle hFree => ?_⟩
  · match hEq : s.queue, hQueue with
    | [front], _ =>
      refine ⟨_, _, exec_enq_complete hRun hActive hDone hp f hRoom hFree hEq rfl,
        exec_completeLast_enq hRun hActive hDone hp f hRoom hFree hEq, ?_⟩
      simp [State.appended, State.completedNext, State.completedLast, State.startedAlone, startedFrames, hActive]
    | front :: second :: rest, _ =>
      refine ⟨_, _, exec_enq_complete hRun hActive hDone hp f hRoom hFree hEq rfl,
        exec_completeNext_enq hRun hActive hDone hp f hRoom hFree hEq, ?_⟩
      simp [State.appended, State.completedNext, startedFrames]
  · refine ⟨_, _, exec_enq_enq_transmitting hRun hp hq f g hRoom hActive hQueue,
      exec_enq_enq_transmitting hRun hq hp g f hRoom hActive hQueue, ?_, ?_, rfl⟩ <;> simp [State.appended]
  · refine ⟨_, _, exec_enq_enq_idle hRun hp hq f g hRoom hIdle hQueue hFree,
      exec_enq_enq_idle hRun hq hp g f hRoom hIdle hQueue hFree, rfl, rfl, rfl, rfl, ?_, ?_, rfl, rfl⟩ <;>
      simp [State.appended, State.startedAlone]

end Sys2Proof.Machine
end

section
/-! SUPPORT. Encodings (`spec/30_encoding.md`): a frame as a payload word with its checksum, what `DECODE` accepts in
these terms, operation numbers on `p_op` and as labels, and the obligations of this family. -/

namespace Sys2Proof

/-! ### Bit vectors and sequences -/

/-- A part of a part. -/
theorem extractLsb'_extractLsb' {w : Nat} (x : BitVec w) {a m b n : Nat} (h : b + n ≤ m) :
    (x.extractLsb' a m).extractLsb' b n = x.extractLsb' (a + b) n := by
  ext i hi
  have hIn : b + i < m := by omega
  simp [hIn, Nat.add_assoc]

/-- Concatenation, as arithmetic. -/
theorem toNat_append_eq {m n : Nat} (x : BitVec m) (y : BitVec n) :
    (x ++ y).toNat = x.toNat * 2 ^ n + y.toNat := by
  rw [BitVec.toNat_append, ← Nat.shiftLeft_add_eq_or_of_lt y.isLt, Nat.shiftLeft_eq]

/-- A part of a sequence spells the field that stands there (R12, R51). -/
theorem slice_eq_be_field (s : BitSeq) {a n : Nat} (h : a + n ≤ s.length) :
    slice s a n = be n (field s a n).toNat := by
  have hLength : (slice s a n).length = n := by simp [slice]; omega
  refine List.ext_getElem (by simp [hLength]) fun i hi _ => ?_
  have hIn : i < n := by omega
  have hBack : n - 1 - (n - 1 - i) = i := by omega
  have hBound : a + i < s.length := by omega
  simp [be, slice, BitVec.testBit_toNat, getLsbD_field s a n (n - 1 - i) (by omega) h, hBack, hBound]

/-! ### A frame's payload word and its checksum (R70, R71, R78) -/

/-- A Command word is what its four fields make (R20). -/
theorem packPorts_ports (w : CmdWord) :
    packPorts (portId w) (portChannel w) (portAction w) (portIntensity w) = w := by
  have hTop : portId w ++ portChannel w = w.extractLsb' 12 20 :=
    BitVec.extractLsb'_append_extractLsb'_eq_extractLsb' rfl
  have hMiddle : w.extractLsb' 12 20 ++ portAction w = w.extractLsb' 8 24 :=
    BitVec.extractLsb'_append_extractLsb'_eq_extractLsb' rfl
  have hAll : w.extractLsb' 8 24 ++ portIntensity w = w.extractLsb' 0 32 :=
    BitVec.extractLsb'_append_extractLsb'_eq_extractLsb' rfl
  rw [packPorts, hTop, hMiddle, hAll, BitVec.extractLsb'_eq_self]

/-- A word is a Command's exactly if its four fields are. -/
theorem Command.eq_word_iff {w : CmdWord} {c : Command} :
    w = c.word ↔
      portId w = c.id ∧ portChannel w = c.channel.nibble ∧ portAction w = c.action.nibble ∧
        portIntensity w = c.intensity := by
  constructor
  · rintro rfl
    simp [Command.word]
  · rintro ⟨hId, hChannel, hAction, hIntensity⟩
    rw [Command.word, ← hId, ← hChannel, ← hAction, ← hIntensity, packPorts_ports]

/-- A field among the first 32 positions of a frame is a part of its payload word. -/
theorem field_payload (w : Frame) {a n : Nat} (h : a + n ≤ 32) :
    field (frameBits w) a n = (w.extractLsb' 11 32).extractLsb' (32 - a - n) n := by
  rw [field_frameBits w a n (by omega), extractLsb'_extractLsb' w (by omega)]
  congr 1
  omega

/-- The checksum field and the payload word make the 40-bit number above the terminator. -/
theorem payload_append_checksum (w : Frame) : w.extractLsb' 11 32 ++ w.extractLsb' 3 8 = w.extractLsb' 3 40 :=
  BitVec.extractLsb'_append_extractLsb'_eq_extractLsb' rfl

/-- `DECODE` of a frame answers the Command whose word is the payload, if the checksum is that word's (R81, R106). -/
theorem decodeFrame_ok {w : Frame} {c : Command} :
    decodeFrame w = .ok c ↔ w.extractLsb' 11 32 = c.word ∧ w.extractLsb' 3 8 = wordChecksum c.word := by
  have hId : field (frameBits w) 0 16 = portId (w.extractLsb' 11 32) := field_payload w (by omega)
  have hChannel : field (frameBits w) 16 4 = portChannel (w.extractLsb' 11 32) := field_payload w (by omega)
  have hAction : field (frameBits w) 20 4 = portAction (w.extractLsb' 11 32) := field_payload w (by omega)
  have hIntensity : field (frameBits w) 24 8 = portIntensity (w.extractLsb' 11 32) := field_payload w (by omega)
  have hSum : checksum (field (frameBits w) 0 8) (field (frameBits w) 8 8) (field (frameBits w) 16 8)
      (field (frameBits w) 24 8) = wordChecksum (w.extractLsb' 11 32) := by
    simp only [field_payload w, Nat.reduceAdd, Nat.reduceLeDiff, wordChecksum, payloadByte, Nat.reduceSub,
      Nat.reduceMul]
  have hLast : field (frameBits w) 32 8 = w.extractLsb' 3 8 := field_frameBits w 32 8 (by omega)
  rw [decodeFrame, decodeBits_ok, hSum, hLast, hId, hChannel, hAction, hIntensity]
  constructor
  · rintro ⟨hId, hChannel, hAction, hIntensity, hSum⟩
    have hWord : w.extractLsb' 11 32 = c.word :=
      Command.eq_word_iff.mpr ⟨hId.symm, hChannel, hAction, hIntensity.symm⟩
    exact ⟨hWord, hWord ▸ hSum.symm⟩
  · rintro ⟨hWord, hSum⟩
    obtain ⟨hId, hChannel, hAction, hIntensity⟩ := Command.eq_word_iff.mp hWord
    exact ⟨hId.symm, hChannel, hAction, hIntensity.symm, by rw [hWord, hSum]⟩

/-- `DECODE` of an encoded Command is the Command (R107). -/
@[simp] theorem decodeFrame_encodeFrame (c : Command) : decodeFrame (encodeFrame c) = .ok c := by
  obtain ⟨hWord, hSum, -⟩ := encodeFrame_parts c
  exact decodeFrame_ok.mpr ⟨hWord, hSum⟩

/-- Two frames that decode to one Command differ in their terminators only. -/
theorem extractLsb'_of_decodeFrame_ok {w : Frame} {c : Command} (h : decodeFrame w = .ok c) :
    (encodeFrame c).extractLsb' 3 40 = w.extractLsb' 3 40 := by
  obtain ⟨hWord, hSum⟩ := decodeFrame_ok.mp h
  obtain ⟨hWord', hSum', -⟩ := encodeFrame_parts c
  rw [← payload_append_checksum, ← payload_append_checksum, hWord, hSum, hWord', hSum']

/-- Settles O3: concatenation as arithmetic, and the parts of a frame. -/
theorem frameAsOneNumber : Obligations.FrameAsOneNumber := by
  intro c
  obtain ⟨hWord, hSum, hTerminator⟩ := encodeFrame_parts c
  refine ⟨?_, hTerminator, ?_⟩
  · have hZero : (0 : BitVec 3).toNat = 0 := rfl
    simp only [encodeFrame, Command.word, packPorts, toNat_append_eq, hZero]
    omega
  · rw [← payload_append_checksum, hWord, hSum, Command.word, packPorts]

/-- Settles O4: `DECODE` reads the fields of the encoded frame as the Command's, and each part of a frame spells its
field. -/
theorem frameFieldsStandAtTheirPositions : Obligations.FrameFieldsStandAtTheirPositions := by
  intro c
  have hLength := length_frameBits (encodeFrame c)
  obtain ⟨hId, hChannel, hAction, hIntensity, hSum⟩ := decodeBits_ok.mp (decodeFrame_encodeFrame c)
  have hTerminator : field (frameBits (encodeFrame c)) 40 3 = 0 :=
    (field_frameBits _ 40 3 (by omega)).trans (encodeFrame_parts c).2.2
  refine ⟨hLength, ?_, ?_, ?_, ?_, ?_, hSum.symm⟩
  · rw [slice_eq_be_field _ (by omega), hId]
  · rw [slice_eq_be_field _ (by omega), hChannel]
  · rw [slice_eq_be_field _ (by omega), hAction]
  · rw [slice_eq_be_field _ (by omega), hIntensity]
  · rw [slice_eq_be_field _ (by omega), hTerminator]
    rfl

/-! ### `DECODE` and the bits from position 40 on (R81) -/

/-- `DECODE` reads fields among the first 40 positions only. -/
theorem decodeBits_congr {s u : BitSeq} (h : ∀ a n, a + n ≤ 40 → field s a n = field u a n) :
    decodeBits s = decodeBits u := by
  simp only [decodeBits, h _ _ (by omega : 0 + 8 ≤ 40), h _ _ (by omega : 0 + 16 ≤ 40),
    h _ _ (by omega : 8 + 8 ≤ 40), h _ _ (by omega : 16 + 4 ≤ 40), h _ _ (by omega : 16 + 8 ≤ 40),
    h _ _ (by omega : 20 + 4 ≤ 40), h _ _ (by omega : 24 + 8 ≤ 40), h _ _ (by omega : 32 + 8 ≤ 40)]

/-- Settles O7: neither appending after position 39 nor cutting there changes a field that `DECODE` reads. -/
theorem decodeReadsOnlyFirstFortyBits : Obligations.DecodeReadsOnlyFirstFortyBits :=
  ⟨fun s u hs => decodeBits_congr fun a n h => field_append s u a n (h.trans hs),
    fun w => decodeBits_congr fun a n h => (field_take (frameBits w) a n 40 h).symm⟩

/-! ### Words on the ports and the operations they present (R76, R82, R83) -/

@[simp] theorem decode_pOp (n : Nibble) (cmd : CmdWord) (f : Frame) : decode (.pOp n cmd f) = decodePOp n cmd f := rfl

@[simp] theorem decode_label (n : Nibble) (o : OperandPorts) : decode (.label n o) = decodeLabel n o := rfl

/-- The word of a wire action is its Command's frame. -/
theorem encode_wireInstr (c : Command) : encode (wireInstr c) = .wire (encodeFrame c) := by
  obtain ⟨id, channel, action, intensity⟩ := c
  cases action <;> rfl

/-- A frame word presents the wire action of the Command it decodes to. -/
theorem decode_wire_ok {w : Frame} {i : Instr} :
    decode (.wire w) = .ok i ↔ ∃ c, decodeFrame w = .ok c ∧ wireInstr c = i := by
  simp only [decode]
  cases decodeFrame w <;> simp

/-- The word of a wire action presents that action. -/
theorem decode_wireFrame (id : DeviceId) (channel : Channel) (action : Action) (intensity : Byte) :
    decode (.wire (wireFrame id channel action intensity)) = .ok (wireInstr ⟨id, channel, action, intensity⟩) :=
  decode_wire_ok.mpr ⟨_, decodeFrame_encodeFrame _, rfl⟩

/-- Settles O56: a wire action by `decodeFrame_encodeFrame`, any other operation by its number and the fields of its
operand port. -/
theorem everyEncodedInstructionDecodes : Obligations.EveryEncodedInstructionDecodes := by
  intro i
  cases i with
  | shock id channel intensity => exact decode_wireFrame id channel .shock intensity
  | vibrate id channel intensity => exact decode_wireFrame id channel .vibrate intensity
  | beep id channel intensity => exact decode_wireFrame id channel .beep intensity
  | light id channel intensity => exact decode_wireFrame id channel .light intensity
  | send id channel action intensity => simp [encode, decodePOp]
  | encode id channel action intensity => simp [encode, decodeLabel]
  | checksum b0 b1 b2 b3 =>
    obtain ⟨h0, h1, h2, h3⟩ := payloadByte_append b0 b1 b2 b3
    simp [encode, decodeLabel, h0, h1, h2, h3]
  | nop | enq | abort | complete | emitDone | start | reset | decode | toSignal | ticks | init => rfl

/-- The three ranges of an operation number: the producer operations, those with a label, the reserved ones (R82,
R83). -/
theorem Nibble.ranges (n : Nibble) : n.toNat ≤ 3 ∨ (4 ≤ n.toNat ∧ n.toNat ≤ 13) ∨ 14 ≤ n.toNat := by omega

section
variable {n : Nibble}

theorem Nibble.of_producerRange (h : n.toNat ≤ 3) : n = 0x0 ∨ n = 0x1 ∨ n = 0x2 ∨ n = 0x3 := by
  revert n; decide

theorem Nibble.of_labelRange (h : 4 ≤ n.toNat ∧ n.toNat ≤ 13) :
    n = 0x4 ∨ n = 0x5 ∨ n = 0x6 ∨ n = 0x7 ∨ n = 0x8 ∨ n = 0x9 ∨ n = 0xA ∨ n = 0xB ∨ n = 0xC ∨ n = 0xD := by
  revert n; decide

theorem Nibble.of_reservedRange (h : 14 ≤ n.toNat) : n = 0xE ∨ n = 0xF := by
  revert n; decide

/-- A value on `p_op` in the producers' range names the operation whose encoding has this number. -/
theorem decodePOp_of_producerRange (h : n.toNat ≤ 3) (cmd : CmdWord) (f : Frame) :
    ∃ i, decodePOp n cmd f = .ok i ∧ ∃ cmd' f', encode i = .pOp n cmd' f' := by
  rcases Nibble.of_producerRange h with rfl | rfl | rfl | rfl <;> exact ⟨_, rfl, _, _, rfl⟩

theorem decodePOp_of_labelRange (h : 4 ≤ n.toNat ∧ n.toNat ≤ 13) (cmd : CmdWord) (f : Frame) :
    decodePOp n cmd f = .error .notAProducerOperation := by
  rcases Nibble.of_labelRange h with rfl | rfl | rfl | rfl | rfl | rfl | rfl | rfl | rfl | rfl <;> rfl

theorem decodePOp_of_reservedRange (h : 14 ≤ n.toNat) (cmd : CmdWord) (f : Frame) :
    decodePOp n cmd f = .error .reservedOpn := by
  rcases Nibble.of_reservedRange h with rfl | rfl <;> rfl

theorem decodeLabel_of_producerRange (h : n.toNat ≤ 3) (o : OperandPorts) :
    decodeLabel n o = .error .producerOperation := by
  rcases Nibble.of_producerRange h with rfl | rfl | rfl | rfl <;> rfl

/-- A label in its range names the operation whose encoding has this number. -/
theorem decodeLabel_of_labelRange (h : 4 ≤ n.toNat ∧ n.toNat ≤ 13) (o : OperandPorts) :
    ∃ i, decodeLabel n o = .ok i ∧ ∃ o', encode i = .label n o' := by
  rcases Nibble.of_labelRange h with rfl | rfl | rfl | rfl | rfl | rfl | rfl | rfl | rfl | rfl <;>
    exact ⟨_, rfl, _, rfl⟩

theorem decodeLabel_of_reservedRange (h : 14 ≤ n.toNat) (o : OperandPorts) :
    decodeLabel n o = .error .reservedOpn := by
  rcases Nibble.of_reservedRange h with rfl | rfl <;> rfl

end

/-- A value on `p_op` that presents an operation is the number in its encoding. -/
theorem decodePOp_ok {n : Nibble} {cmd : CmdWord} {f : Frame} {i : Instr} (h : decodePOp n cmd f = .ok i) :
    n.toNat ≤ 3 ∧ ∃ cmd' f', encode i = .pOp n cmd' f' := by
  rcases n.ranges with hn | hn | hn
  · obtain ⟨j, hj, hEncode⟩ := decodePOp_of_producerRange hn cmd f
    obtain rfl : j = i := Except.ok.inj (hj.symm.trans h)
    exact ⟨hn, hEncode⟩
  · simp [decodePOp_of_labelRange hn] at h
  · simp [decodePOp_of_reservedRange hn] at h

/-- A label that presents an operation is the number in its encoding. -/
theorem decodeLabel_ok {n : Nibble} {o : OperandPorts} {i : Instr} (h : decodeLabel n o = .ok i) :
    4 ≤ n.toNat ∧ n.toNat ≤ 13 ∧ ∃ o', encode i = .label n o' := by
  rcases n.ranges with hn | hn | hn
  · simp [decodeLabel_of_producerRange hn] at h
  · obtain ⟨j, hj, hEncode⟩ := decodeLabel_of_labelRange hn o
    obtain rfl : j = i := Except.ok.inj (hj.symm.trans h)
    exact ⟨hn.1, hn.2, hEncode⟩
  · simp [decodeLabel_of_reservedRange hn] at h

/-- What `p_op` rejects, and under which name (R83). -/
theorem decodePOp_error (n : Nibble) (cmd : CmdWord) (f : Frame) :
    (decodePOp n cmd f = .error .notAProducerOperation ↔ 4 ≤ n.toNat ∧ n.toNat ≤ 13) ∧
    (decodePOp n cmd f = .error .reservedOpn ↔ 14 ≤ n.toNat) := by
  rcases n.ranges with hn | hn | hn
  · obtain ⟨j, hj, -⟩ := decodePOp_of_producerRange hn cmd f
    simp only [hj, reduceCtorEq, false_iff]
    omega
  · simp only [decodePOp_of_labelRange hn, Except.error.injEq, reduceCtorEq, false_iff, true_iff]
    omega
  · simp only [decodePOp_of_reservedRange hn, Except.error.injEq, reduceCtorEq, false_iff, true_iff]
    omega

/-- Which labels are rejected, and under which name (R82, R83). -/
theorem decodeLabel_error (n : Nibble) (o : OperandPorts) :
    (decodeLabel n o = .error .producerOperation ↔ n.toNat ≤ 3) ∧
    (decodeLabel n o = .error .reservedOpn ↔ 14 ≤ n.toNat) := by
  rcases n.ranges with hn | hn | hn
  · simp only [decodeLabel_of_producerRange hn, Except.error.injEq, reduceCtorEq, false_iff, true_iff]
    omega
  · obtain ⟨j, hj, -⟩ := decodeLabel_of_labelRange hn o
    simp only [hj, reduceCtorEq, false_iff]
    omega
  · simp only [decodeLabel_of_reservedRange hn, Except.error.injEq, reduceCtorEq, false_iff, true_iff]
    omega

/-- Settles O57: a frame word by its payload and checksum, a number by the range it stands in. -/
theorem everyWordHasOneMeaning : Obligations.EveryWordHasOneMeaning := by
  refine ⟨fun w i h => ?_, fun n cmd f i h => decodePOp_ok h, fun n o i h => decodeLabel_ok h, decodePOp_error,
    decodeLabel_error⟩
  obtain ⟨c, hc, rfl⟩ := decode_wire_ok.mp h
  exact ⟨_, encode_wireInstr c, extractLsb'_of_decodeFrame_ok hc⟩

end Sys2Proof

namespace Sys2Proof.Machine

/-- `SEND` of a Command's operands is the `SEND` of the Command (R155). -/
theorem exec_send_command (c : Command) (s : State) :
    exec (.send c.id c.channel.nibble c.action.nibble c.intensity) s = sendCommand c s := by
  simp [exec, execSend]

/-- Settles O13: both sides send the same Command, since the nibbles 1 to 4 are those of the four actions (R74). -/
theorem wireActionsAreSends : Obligations.WireActionsAreSends := fun s id channel n =>
  ⟨(exec_send_command ⟨id, channel, .shock, n⟩ s).symm, (exec_send_command ⟨id, channel, .vibrate, n⟩ s).symm,
    (exec_send_command ⟨id, channel, .beep, n⟩ s).symm, (exec_send_command ⟨id, channel, .light, n⟩ s).symm⟩

/-- A table word that is an operation's encoding is read as that operation. -/
theorem decodeTableWord_of_encode {nbits w : Nat} {i : Instr} (h : tableWord nbits w = encode i) :
    decodeTableWord nbits w = some i := by
  rw [decodeTableWord_eq_some, h]
  exact everyEncodedInstructionDecodes i

/-- Settles O58: the four frames are the encodings of their operations; the rest is evaluated. -/
theorem wordsFromTheSpecDecode : Obligations.WordsFromTheSpecDecode :=
  ⟨decodeTableWord_of_encode (by decide), decodeTableWord_of_encode (by decide),
    decodeTableWord_of_encode (by decide), decodeTableWord_of_encode (by decide), by decide⟩

end Sys2Proof.Machine
end

section
/-! SUPPORT. PacketCodec (`spec/40_codec.md`): when two bit sequences have a field in common, which error `DECODE`
answers, what one flipped bit does to the checksum, the pure functions where they are enabled, and the obligations of
this family. -/

namespace Sys2Proof

/-! ### Fields of sequences that agree in part -/

/-- A field is decided by the bits at its positions. -/
theorem field_congr {s u : BitSeq} {a n : Nat} (h : ∀ k, a ≤ k → k < a + n → s[k]? = u[k]?) :
    field s a n = field u a n := by
  have hSlice : slice s a n = slice u a n := by
    refine List.ext_getElem? fun k => ?_
    by_cases hk : k < n
    · simp [slice, List.getElem?_take_of_lt hk, h (a + k) (by omega) (by omega)]
    · simp [slice, List.getElem?_take_eq_none (not_lt.mp hk)]
  rw [field, field, hSlice]

/-- Equal fields have equal bits at their positions. -/
theorem getElem?_eq_of_field_eq {s u : BitSeq} {a n k : Nat} (hs : a + n ≤ s.length) (hu : a + n ≤ u.length)
    (h : field s a n = field u a n) (hk : a ≤ k) (hk' : k < a + n) : s[k]? = u[k]? := by
  have hBit := congrArg (·.getLsbD (n - 1 - (k - a))) h
  have hIndex : a + (n - 1 - (n - 1 - (k - a))) = k := by omega
  simp only [getLsbD_field _ a n _ (by omega : n - 1 - (k - a) < n) hs,
    getLsbD_field _ a n _ (by omega : n - 1 - (k - a) < n) hu, hIndex] at hBit
  rw [List.getElem?_eq_getElem (by omega), List.getElem?_eq_getElem (by omega)] at hBit ⊢
  exact congrArg some hBit

/-- Writing a bit outside a field leaves the field as it was. -/
theorem field_set_of_outside (s : BitSeq) {i a n : Nat} (b : Bool) (h : i < a ∨ a + n ≤ i) :
    field (s.set i b) a n = field s a n :=
  field_congr fun k _ _ => List.getElem?_set_ne (by omega)

/-- Two neighbouring fields make one. -/
theorem field_append_field (s : BitSeq) (a m n : Nat) (h : a + m + n ≤ s.length) :
    field s a m ++ field s (a + m) n = field s a (m + n) := by
  apply BitVec.eq_of_getLsbD_eq
  intro i hi
  rw [getLsbD_field _ _ _ _ hi (by omega), BitVec.getLsbD_append]
  split
  all_goals
    rw [getLsbD_field _ _ _ _ (by omega) (by omega)]
    congr 2
    omega

/-- Sequences that agree before a field and in it agree up to its end. -/
theorem take_add_of_field_eq {s u : BitSeq} {a n : Nat} (hs : a + n ≤ s.length) (hu : a + n ≤ u.length)
    (hTake : s.take a = u.take a) (hField : field s a n = field u a n) : s.take (a + n) = u.take (a + n) := by
  have hSlice : slice s a n = slice u a n := by rw [slice_eq_be_field s hs, slice_eq_be_field u hu, hField]
  rw [List.take_add, List.take_add, hTake]
  exact congrArg _ hSlice

/-- Writing another bit inside a field changes the field. -/
theorem field_set_ne {s : BitSeq} {i a n : Nat} {b : Bool} (hs : a + n ≤ s.length) (hi : a ≤ i) (hi' : i < a + n)
    (hb : s[i]? ≠ some b) : field (s.set i b) a n ≠ field s a n := by
  intro h
  have hBit := getElem?_eq_of_field_eq (by simpa using hs) hs h hi hi'
  rw [List.getElem?_set_self (by omega)] at hBit
  exact hb hBit.symm

/-- The front part of a concatenation. -/
theorem slice_append_left {x y : BitSeq} {n : Nat} (h : x.length = n) : slice (x ++ y) 0 n = x := by
  simp [slice, ← h]

/-- Any part of a concatenation behind its front. -/
theorem slice_append_right {x y : BitSeq} {m : Nat} (h : x.length = m) (a n : Nat) :
    slice (x ++ y) (m + a) n = slice y a n := by
  rw [slice, ← List.drop_drop, List.drop_left' h, slice]

/-- The length of a part of a sequence. -/
theorem length_slice {s : BitSeq} {a n : Nat} (h : a + n ≤ s.length) : (slice s a n).length = n := by
  rw [slice, List.length_take, List.length_drop]
  omega

/-! ### The checksum (R78, R100, R101) -/

/-- `CHECKSUM` adds in an 8-bit register (R101). -/
theorem checksum_eq_add (b0 b1 b2 b3 : Byte) : checksum b0 b1 b2 b3 = b0 + b1 + b2 + b3 := by
  apply BitVec.eq_of_toNat_eq
  simp [checksum_toNat, BitVec.toNat_add]

/-- The checksum field of a sequence is the checksum of the four bytes before it: the test of `DECODE` (R78, R106). -/
def checksumHolds (s : BitSeq) : Prop :=
  checksum (field s 0 8) (field s 8 8) (field s 16 8) (field s 24 8) = field s 32 8

/-- The test as a sum. -/
theorem checksumHolds_iff {s : BitSeq} :
    checksumHolds s ↔ field s 0 8 + field s 8 8 + field s 16 8 + field s 24 8 = field s 32 8 := by
  rw [checksumHolds, checksum_eq_add]

/-- Any four of the five bytes that the test reads decide the fifth. -/
theorem byte_eq_of_checksumHolds {s u : BitSeq} (hs : checksumHolds s) (hu : checksumHolds u) {j : Nat} (hj : j < 5)
    (h : ∀ k, k ≠ j → field s (8 * k) 8 = field u (8 * k) 8) : field s (8 * j) 8 = field u (8 * j) 8 := by
  rw [checksumHolds_iff] at hs hu
  have h0 := h 0
  have h1 := h 1
  have h2 := h 2
  have h3 := h 3
  have h4 := h 4
  interval_cases j <;> grind

/-- One other bit among the first 40 makes the test fail. -/
theorem not_checksumHolds_set {s : BitSeq} {i : Nat} {b : Bool} (hs : 40 ≤ s.length) (hi : i < 40)
    (hb : s[i]? ≠ some b) (hSum : checksumHolds s) : ¬ checksumHolds (s.set i b) := by
  intro hSet
  refine field_set_ne (a := 8 * (i / 8)) (n := 8) (by omega) (by omega) (by omega) hb ?_
  exact byte_eq_of_checksumHolds hSet hSum (by omega) fun k hk => field_set_of_outside s b (by omega)

/-! ### Commands and their words -/

/-- Which operands are a Command (R20 to R22). -/
theorem Command.exists_ofPorts {id : DeviceId} {channel action : Nibble} {n : Byte} :
    (∃ c, Command.ofPorts id channel action n = some c) ↔
      channel.toNat ≤ 2 ∧ 1 ≤ action.toNat ∧ action.toNat ≤ 4 := by
  constructor
  · rintro ⟨c, hc⟩
    by_contra hIllegal
    rw [Command.ofPorts_eq_none (by omega)] at hc
    cases hc
  · intro hLegal
    exact Command.ofPorts_of_legal (by simpa [channelLegal, actionLegal] using hLegal)

/-- A nibble that is a channel (R73). -/
theorem Channel.exists_ofNibble {n : Nibble} (h : n.toNat ≤ 2) : ∃ c, Channel.ofNibble n = some c :=
  Option.ne_none_iff_exists'.mp fun hNone => by rw [Channel.ofNibble_eq_none] at hNone; omega

/-- A nibble that is an action (R74). -/
theorem Action.exists_ofNibble {n : Nibble} (h : 1 ≤ n.toNat ∧ n.toNat ≤ 4) : ∃ a, Action.ofNibble n = some a :=
  Option.ne_none_iff_exists'.mp fun hNone => by rw [Action.ofNibble_eq_none] at hNone; omega

theorem Channel.nibble_toNat_le (c : Channel) : c.nibble.toNat ≤ 2 := by cases c <;> decide

theorem Action.nibble_toNat_range (a : Action) : 1 ≤ a.nibble.toNat ∧ a.nibble.toNat ≤ 4 := by cases a <;> decide

/-- Different Commands have different words (R71, R105). -/
theorem Command.word_inj {c d : Command} : c.word = d.word ↔ c = d := by
  refine ⟨fun h => ?_, congrArg Command.word⟩
  obtain ⟨hId, hChannel, hAction, hIntensity⟩ := Command.eq_word_iff.mp h
  have hPorts := Command.ofPorts_nibbles d
  rw [← hId, ← hChannel, ← hAction, ← hIntensity] at hPorts
  simpa [Command.word] using hPorts

/-- The third byte of a Command word is its two nibbles (R52, R71). -/
theorem payloadByte_two_word (c : Command) : payloadByte c.word 2 = c.channel.nibble ++ c.action.nibble := by
  have hJoin : portChannel c.word ++ portAction c.word = payloadByte c.word 2 :=
    BitVec.extractLsb'_append_extractLsb'_eq_extractLsb' rfl
  rw [← hJoin, Command.word, portChannel_pack, portAction_pack]

/-- The third byte is at most `0x24` (R101). -/
theorem payloadByte_two_word_le (c : Command) : (payloadByte c.word 2).toNat ≤ 0x24 := by
  have hChannel := c.channel.nibble_toNat_le
  have hAction := c.action.nibble_toNat_range
  rw [payloadByte_two_word, toNat_append_eq]
  omega

/-- The first 32 bits of an encoded frame spell the Command word (R71, R104). -/
theorem field_encodeFrame_word (c : Command) : field (frameBits (encodeFrame c)) 0 32 = c.word :=
  (field_frameBits _ 0 32 (by omega)).trans (encodeFrame_parts c).1

/-! ### What `DECODE` answers (R106, R200) -/

/-- `DECODE` succeeds exactly on the valid patterns (R76, R107). -/
theorem exists_decodeBits_ok {s : BitSeq} :
    (∃ c, decodeBits s = .ok c) ↔
      (field s 16 4).toNat ≤ 2 ∧ 1 ≤ (field s 20 4).toNat ∧ (field s 20 4).toNat ≤ 4 ∧ checksumHolds s := by
  have hPorts : ∀ c, decodeBits s = .ok c ↔
      Command.ofPorts (field s 0 16) (field s 16 4) (field s 20 4) (field s 24 8) = some c ∧ checksumHolds s := by
    intro c
    simp only [decodeBits_ok, Command.ofPorts_eq_some, checksumHolds, and_assoc]
  simp only [hPorts, exists_and_right, Command.exists_ofPorts, and_assoc]

section
variable {s : BitSeq}

/-- The channel is tested first (R191). -/
theorem decodeBits_of_illegalChannel (h : 3 ≤ (field s 16 4).toNat) : decodeBits s = .error .invalidChannel := by
  simp [decodeBits, Channel.ofNibble_eq_none.mpr h]

/-- The action is tested behind the channel (R192). -/
theorem decodeBits_of_illegalAction (hChannel : (field s 16 4).toNat ≤ 2)
    (h : (field s 20 4).toNat = 0 ∨ 5 ≤ (field s 20 4).toNat) : decodeBits s = .error .invalidAction := by
  obtain ⟨c, hc⟩ := Channel.exists_ofNibble hChannel
  simp [decodeBits, hc, Action.ofNibble_eq_none.mpr h]

/-- The checksum is tested last (R194). -/
theorem decodeBits_of_not_checksumHolds (hChannel : (field s 16 4).toNat ≤ 2)
    (hAction : 1 ≤ (field s 20 4).toNat ∧ (field s 20 4).toNat ≤ 4) (h : ¬ checksumHolds s) :
    decodeBits s = .error .checksumMismatch := by
  obtain ⟨c, hc⟩ := Channel.exists_ofNibble hChannel
  obtain ⟨a, ha⟩ := Action.exists_ofNibble hAction
  rw [checksumHolds] at h
  simp [decodeBits, hc, ha, h]

end

/-- Two sequences that decode to one Command agree in their first 40 bits (R107). -/
theorem take_forty_of_decodeBits_ok {s u : BitSeq} {c : Command} (hs : 40 ≤ s.length) (hu : 40 ≤ u.length)
    (h : decodeBits s = .ok c) (h' : decodeBits u = .ok c) : s.take 40 = u.take 40 := by
  obtain ⟨hId, hChannel, hAction, hIntensity, hSum⟩ := decodeBits_ok.mp h
  obtain ⟨hId', hChannel', hAction', hIntensity', hSum'⟩ := decodeBits_ok.mp h'
  have h0 : s.take 0 = u.take 0 := rfl
  have h16 : s.take 16 = u.take 16 :=
    take_add_of_field_eq (by omega) (by omega) h0 (hId.symm.trans hId')
  have h20 : s.take 20 = u.take 20 :=
    take_add_of_field_eq (by omega) (by omega) h16 (hChannel.trans hChannel'.symm)
  have h24 : s.take 24 = u.take 24 :=
    take_add_of_field_eq (by omega) (by omega) h20 (hAction.trans hAction'.symm)
  have h32 : s.take 32 = u.take 32 :=
    take_add_of_field_eq (by omega) (by omega) h24 (hIntensity.symm.trans hIntensity')
  have hByte : ∀ a, a + 8 ≤ 32 → field s a 8 = field u a 8 := fun a ha => by
    rw [← field_take s a 8 32 ha, h32, field_take u a 8 32 ha]
  refine take_add_of_field_eq (n := 8) (by omega) (by omega) h32 ?_
  rw [← hSum, ← hSum', hByte 0 (by omega), hByte 8 (by omega), hByte 16 (by omega), hByte 24 (by omega)]

/-- Settles O5: the round trip of a frame, the agreement of two sequences that decode to one Command, and the valid
patterns. -/
theorem decodeUndoesEncode : Obligations.DecodeUndoesEncode := by
  refine ⟨fun c => ⟨decodeFrame_encodeFrame c, ?_⟩, fun s c hs h => ⟨?_, ?_⟩, fun s _ => exists_decodeBits_ok⟩
  · rw [← decodeReadsOnlyFirstFortyBits.2, decodeFrame_encodeFrame]
  · exact take_forty_of_decodeBits_ok (by simp) hs (decodeFrame_encodeFrame c) h
  · obtain ⟨hLength, -, -, -, -, hTerminator, -⟩ := frameFieldsStandAtTheirPositions c
    rw [← hTerminator, slice, List.take_of_length_le (by simp)]

/-- Settles O2: `CHECKSUM` as a sum of bytes, the range of a byte, and the third byte of a Command word. -/
theorem checksumWrapsWithoutSaturating : Obligations.ChecksumWrapsWithoutSaturating := by
  refine ⟨checksum_eq_add, fun b0 b1 b2 b3 => ?_, ⟨255, 255, 255, 255, rfl⟩, fun c => ⟨payloadByte_two_word_le c, ?_⟩,
    ⟨⟨0xFFFF, .two, .light, 255⟩, rfl⟩⟩
  · omega
  · have hThird := payloadByte_two_word_le c
    omega

/-- Settles O9: the first 32 bits are the Command word. -/
theorem encodeIsInjectiveOnThePayload : Obligations.EncodeIsInjectiveOnThePayload := by
  intro c d h
  rw [← Command.word_inj, ← field_encodeFrame_word, ← field_encodeFrame_word, ← field_take _ 0 32 32 (by omega), h,
    field_take _ 0 32 32 (by omega)]

/-! ### Single-bit errors (R102) -/

section
variable {s : BitSeq} {c : Command} {i : Nat} {b : Bool}

/-- What a bit written outside the first 40 does: nothing that `DECODE` sees. -/
theorem decodeBits_set_of_ge (hi : 40 ≤ i) : decodeBits (s.set i b) = decodeBits s :=
  decodeBits_congr fun _ _ h => field_set_of_outside s b (.inr (h.trans hi))

variable (hs : 40 ≤ s.length) (h : decodeBits s = .ok c) (hi : i < 40) (hb : s[i]? ≠ some b)
include hs h hi hb

/-- One other bit makes the checksum test fail. -/
theorem not_checksumHolds_set_of_decodeBits_ok : ¬ checksumHolds (s.set i b) := by
  obtain ⟨-, -, -, -, hSum⟩ := decodeBits_ok.mp h
  exact not_checksumHolds_set hs hi hb hSum

/-- One other bit makes `DECODE` fail. -/
theorem exists_error_of_set : ∃ e, decodeBits (s.set i b) = .error e := by
  rcases hSet : decodeBits (s.set i b) with e | d
  · exact ⟨e, rfl⟩
  · obtain ⟨-, -, -, hSum⟩ := exists_decodeBits_ok.mp ⟨d, hSet⟩
    exact absurd hSum (not_checksumHolds_set_of_decodeBits_ok hs h hi hb)

/-- One other bit outside the nibbles is a checksum error. -/
theorem decodeBits_set_outside_nibbles (hOut : i < 16 ∨ 24 ≤ i) :
    decodeBits (s.set i b) = .error .checksumMismatch := by
  obtain ⟨hChannel, hAction, hAction', -⟩ := exists_decodeBits_ok.mp ⟨c, h⟩
  have hSum := not_checksumHolds_set_of_decodeBits_ok hs h hi hb
  rw [← field_set_of_outside s b (by omega : i < 16 ∨ 16 + 4 ≤ i)] at hChannel
  rw [← field_set_of_outside s b (by omega : i < 20 ∨ 20 + 4 ≤ i)] at hAction hAction'
  exact decodeBits_of_not_checksumHolds hChannel ⟨hAction, hAction'⟩ hSum

/-- One other bit in the channel nibble is an error of the channel, or of the checksum where the channel stays one. -/
theorem decodeBits_set_channel (hIn : 16 ≤ i ∧ i < 20) :
    decodeBits (s.set i b) =
      if (field (s.set i b) 16 4).toNat ≤ 2 then .error .checksumMismatch else .error .invalidChannel := by
  obtain ⟨-, hAction, hAction', -⟩ := exists_decodeBits_ok.mp ⟨c, h⟩
  have hSum := not_checksumHolds_set_of_decodeBits_ok hs h hi hb
  rw [← field_set_of_outside s b (by omega : i < 20 ∨ 20 + 4 ≤ i)] at hAction hAction'
  split
  next hChannel => exact decodeBits_of_not_checksumHolds hChannel ⟨hAction, hAction'⟩ hSum
  next hChannel => exact decodeBits_of_illegalChannel (by omega)

/-- One other bit in the action nibble is an error of the action, or of the checksum where the action stays one. -/
theorem decodeBits_set_action (hIn : 20 ≤ i ∧ i < 24) :
    decodeBits (s.set i b) =
      if 1 ≤ (field (s.set i b) 20 4).toNat ∧ (field (s.set i b) 20 4).toNat ≤ 4 then .error .checksumMismatch
      else .error .invalidAction := by
  obtain ⟨hChannel, -⟩ := exists_decodeBits_ok.mp ⟨c, h⟩
  have hSum := not_checksumHolds_set_of_decodeBits_ok hs h hi hb
  rw [← field_set_of_outside s b (by omega : i < 16 ∨ 16 + 4 ≤ i)] at hChannel
  split
  next hAction => exact decodeBits_of_not_checksumHolds hChannel hAction hSum
  next hAction => exact decodeBits_of_illegalAction hChannel (by omega)

end

/-- The swap of the two id bytes keeps the checksum, and `DECODE` reads the bytes of the id swapped (R102, C2). -/
theorem decodeBits_swap_id_bytes {s : BitSeq} {c : Command} (hs : 40 ≤ s.length) (h : decodeBits s = .ok c) :
    decodeBits (slice s 8 8 ++ slice s 0 8 ++ s.drop 16) =
      .ok { c with id := c.id.extractLsb' 0 8 ++ c.id.extractLsb' 8 8 } := by
  obtain ⟨hId, hChannel, hAction, hIntensity, hSum⟩ := decodeBits_ok.mp h
  have hFirst : (slice s 8 8).length = 8 := length_slice (by omega)
  have hSecond : (slice s 0 8).length = 8 := length_slice (by omega)
  have hBoth : (slice s 8 8 ++ slice s 0 8).length = 16 := by rw [List.length_append, hFirst, hSecond]
  generalize hu : slice s 8 8 ++ slice s 0 8 ++ s.drop 16 = u
  have hLength : 16 ≤ u.length := by rw [← hu, List.length_append, hBoth]; omega
  have h0 : field u 0 8 = field s 8 8 := by
    rw [field, field, ← hu, List.append_assoc, slice_append_left hFirst]
  have h8 : field u 8 8 = field s 0 8 := by
    rw [field, field, ← hu, List.append_assoc, slice_append_right (m := 8) hFirst 0 8, slice_append_left hSecond]
  have hRest : ∀ a n, field u (16 + a) n = field s (16 + a) n := fun a n => by
    rw [field, field, ← hu, slice_append_right hBoth, slice, List.drop_drop, slice]
  have hJoin : field s 0 8 ++ field s 8 8 = c.id := by rw [hId, field_append_field s 0 8 8 (by omega)]
  have hSwapped : field u 0 16 = field s 8 8 ++ field s 0 8 := by
    rw [← h0, ← h8, field_append_field u 0 8 8 (by omega)]
  refine decodeBits_ok.mpr ⟨?_, (hRest 0 4).trans hChannel, (hRest 4 4).trans hAction,
    hIntensity.trans (hRest 8 8).symm, ?_⟩
  · rw [hSwapped, ← hJoin, BitVec.extractLsb'_append_eq_right, BitVec.extractLsb'_append_eq_left]
  · rw [h0, h8, hRest 0 8, hRest 8 8, hRest 16 8, ← hSum, checksum_eq_add, checksum_eq_add,
      add_comm (field s 8 8) (field s 0 8)]

/-- Settles O8: an encoded frame decodes, and each position by the field in which it stands. -/
theorem singleBitFlipIsDetected : Obligations.SingleBitFlipIsDetected := by
  intro c i s flipped
  have hs : 40 ≤ s.length := by simp [s]
  have hOk : decodeBits s = .ok c := decodeFrame_encodeFrame c
  have hFlip : i < 40 → s[i]? ≠ some (!frameBit (encodeFrame c) i) := fun hi => by
    rw [getElem?_frameBits, if_pos (by omega)]
    simp
  refine ⟨fun hi => exists_error_of_set hs hOk hi (hFlip hi), fun hOut => ?_, fun hIn => ?_, fun hIn => ?_,
    fun hIn => ?_, decodeBits_swap_id_bytes hs hOk⟩
  · have hi : i < 40 := by omega
    exact decodeBits_set_outside_nibbles hs hOk hi (hFlip hi) (by omega)
  · have hi : i < 40 := by omega
    exact decodeBits_set_channel hs hOk hi (hFlip hi) hIn
  · have hi : i < 40 := by omega
    exact decodeBits_set_action hs hOk hi (hFlip hi) hIn
  · exact (decodeBits_set_of_ge hIn.1).trans hOk

end Sys2Proof

namespace Sys2Proof.Machine

/-! ### The pure functions where they are enabled (R100, R104, R106) -/

/-- Conditions are tested one after the other. -/
theorem require_append (cs ds : List (Bool × Refusal)) (go : Result) :
    require (cs ++ ds) go = require cs (require ds go) := by
  induction cs with
  | nil => rfl
  | cons c cs ih => simp only [List.cons_append, require, ih]

section
variable {s : State} (hs : s.servesPureUser)
include hs

/-- The enabling conditions of the pure functions hold for the agents R205 lists. -/
theorem require_pureUser (go : Result) : require (allowed s s.byPureUser) go = go :=
  require_of_all (by simpa [allowed] using servesPureUser_iff.mp hs)

/-- `CHECKSUM` (R100). -/
theorem exec_checksum (b0 b1 b2 b3 : Byte) :
    exec (.checksum b0 b1 b2 b3) s = .next { s with out := { s.out with sum := some (checksum b0 b1 b2 b3) } } :=
  require_pureUser hs _

/-- `ENCODE` of a Command (R104). -/
theorem exec_encode_command (c : Command) :
    exec (.encode c.id c.channel.nibble c.action.nibble c.intensity) s =
      .next { s with out := { s.out with encFrame := some (encodeFrame c) } } := by
  simp [exec, execEncode, require_pureUser hs]

/-- `ENCODE` of operands that are no Command (U1). -/
theorem exec_encode_notACommand {id : DeviceId} {channel action : Nibble} {n : Byte}
    (h : Command.ofPorts id channel action n = none) :
    exec (.encode id channel action n) s = .refused .notACommand := by
  simp [exec, execEncode, require_pureUser hs, h]

section
variable {bits : BitSeq} (hLength : 40 ≤ bits.length)
include hLength

/-- `DECODE` of a valid pattern (R106). -/
theorem exec_decode_ok {c : Command} (h : decodeBits bits = .ok c) :
    exec (.decode bits) s = .next { s with out := { s.out with decStatus := some 0, decCmd := some c.word } } := by
  simp [exec, execDecode, require_append, require_pureUser hs, require, hLength, h]

/-- `DECODE` with an error (R193, R43). -/
theorem exec_decode_error {e : DecodeError} (h : decodeBits bits = .error e) :
    exec (.decode bits) s =
      .next { s with
        out := { s.out with decStatus := some e.code, decCmd := some (Config.freeDecCmd s.freeCount) } } := by
  simp [exec, execDecode, require_append, require_pureUser hs, require, hLength, h]

end

/-- `DECODE` of fewer than 40 bits (U2). -/
theorem exec_decode_short {bits : BitSeq} (h : bits.length < 40) : exec (.decode bits) s = .refused .shortSequence := by
  simp [exec, execDecode, require_append, require_pureUser hs, require, h]

end

/-- Settles O1: the sum of bytes as a number, and addition in an 8-bit register, which commutes. -/
theorem checksumIsByteSumModulo256 : Obligations.ChecksumIsByteSumModulo256 := by
  refine ⟨fun s b0 b1 b2 b3 hs => exec_checksum hs b0 b1 b2 b3, fun b0 b1 b2 b3 => ⟨checksum_toNat b0 b1 b2 b3, ?_⟩⟩
  simp only [checksum_eq_add]
  exact ⟨by rw [add_comm b1 b0], by rw [add_right_comm b0 b2 b1], by rw [add_right_comm (b0 + b1) b3 b2]⟩

/-- Settles O10: `ENCODE` of the operands of a Command, and of operands that are none. -/
theorem encodeCompletes : Obligations.EncodeCompletes :=
  ⟨fun _ c hs => exec_encode_command hs c,
    fun _ _ _ _ _ hs h => exec_encode_notACommand hs (Command.ofPorts_eq_none h)⟩

/-- Settles O11: `DECODE` by its three outcomes; the free value stands on `dec_cmd` with an error. -/
theorem decodeCompletes : Obligations.DecodeCompletes := by
  refine ⟨fun s bits c hs hLength h => exec_decode_ok hs hLength h, fun s bits e hs hLength h => ?_,
    fun s bits hs h => exec_decode_short hs h⟩
  have hExec := exec_decode_error hs hLength h
  cases e <;> exact ⟨_, hExec⟩

end Sys2Proof.Machine
end

section
/-! SUPPORT. PulseMap (`spec/41_pulsemap.md`): how far `TICKS` rounds, the bits of a frame as symbols and back, what a
well-formed configuration keeps apart, and the obligations of this family. -/

namespace Sys2Proof

/-! ### The bits of a frame (R12, R77) -/

/-- Different frames have different sequences. -/
theorem frameBits_injective : Function.Injective frameBits := by
  intro f g h
  refine BitVec.eq_of_getMsbD_eq fun i hi => ?_
  have hBit : (frameBits f)[i]? = (frameBits g)[i]? := by rw [h]
  rw [getElem?_frameBits, getElem?_frameBits, if_pos hi, if_pos hi] at hBit
  exact Option.some.inj hBit

/-- The terminator of an encoded frame is three zeros (R77, R104). -/
theorem frameBit_encodeFrame_terminator (d : Command) {i : Nat} (h : 40 ≤ i) : frameBit (encodeFrame d) i = false := by
  obtain ⟨-, -, hZero⟩ := encodeFrame_parts d
  have hBit : ((encodeFrame d).extractLsb' 0 3).getLsbD (42 - i) = false := by simp [hZero]
  have hLow : 42 - i < 3 := by omega
  rw [BitVec.getLsbD_extractLsb', decide_eq_true hLow, Bool.true_and, Nat.zero_add] at hBit
  rw [frameBit, BitVec.getMsbD, hBit, Bool.and_false]

end Sys2Proof

namespace Sys2Proof.Machine

/-! ### `TICKS` and `TOSIGNAL` where they are enabled (R133, R136) -/

/-- `TICKS` inside `INIT` (R133, R205). -/
theorem exec_ticks {s : State} (hs : s.agent = .inside) (us : Nat) :
    exec (.ticks us) s = .next { s with out := { s.out with tickCount := some (ticks s.par.tickHz us) } } :=
  require_of_all (by simp [allowed, State.agentExists, hs])

/-- For the agents R205 lists, `TOSIGNAL` depends on `initialised` alone (R44). -/
theorem exec_toSignal {s : State} (hs : s.servesPureUser) (f : Frame) :
    exec (.toSignal f) s =
      if s.initialised then .next { s with out := { s.out with mapTrain := some (toSignal s.cfg f) } }
      else .refused .notInitialised := by
  simp [exec, execToSignal, require_append, require_pureUser hs, require]

/-- Settles O43: the two values of `initialised` in `exec_toSignal`. -/
theorem tosignalCompletesAfterInit : Obligations.TosignalCompletesAfterInit :=
  ⟨fun _ f hs hInit => (exec_toSignal hs f).trans (if_pos hInit),
    fun _ f hs hInit => (exec_toSignal hs f).trans (if_neg (by simp [hInit]))⟩

/-- Settles O38: `exec_ticks`, and the quotient's bounds (`ticks_eq_iff`). -/
theorem ticksCompletes : Obligations.TicksCompletes :=
  ⟨fun _ us hs => exec_ticks hs us, fun hz us n => by rw [ticks_eq_iff, mul_assoc 2 us hz]⟩

/-! ### Rounding (R138) -/

/-- What `TICKS` rounds away, in millionths of a tick. -/
def tickError (hz us : Nat) : Int := (ticks hz us : Int) * 1000000 - (us : Int) * hz

/-- The rounding error is at most half a tick (R138). -/
theorem two_mul_tickError_le (hz us : Nat) : 2 * (tickError hz us).natAbs ≤ 1000000 := by
  obtain ⟨hLow, hHigh⟩ := ticks_eq_iff.mp (rfl : ticks hz us = ticks hz us)
  rw [tickError, ← Nat.cast_mul]
  omega

/-- A symbol rounds twice: at most half a tick for its high and half a tick for its low. -/
theorem tickError_add_le (hz high low : Nat) : (tickError hz high + tickError hz low).natAbs ≤ 1000000 := by
  have hHigh := two_mul_tickError_le hz high
  have hLow := two_mul_tickError_le hz low
  omega

/-- The rounding of `n` equal symbols. -/
theorem mul_tickError_add_le (n hz high low : Nat) :
    (n * (tickError hz high + tickError hz low)).natAbs ≤ n * 1000000 := by
  rw [Int.natAbs_mul, Int.natAbs_natCast]
  exact Nat.mul_le_mul_left n (tickError_add_le hz high low)

/-- The total length of a train (R137). -/
theorem trainTicks_toSignal (c : Cfg) (f : Frame) :
    trainTicks (toSignal c f) =
      c.syncH + c.syncL + (frameBits f).count true * (c.oneH + c.oneL) +
        (frameBits f).count false * (c.zeroH + c.zeroL) := by
  rw [toSignal, trainTicks_cons, trainTicks_map_symbol, syncSymbol, add_assoc (c.syncH + c.syncL)]

/-- The error of a whole train is the sum of its symbols' errors (R137). -/
theorem trainTicks_error (p : Params) (f : Frame) :
    (trainTicks (toSignal (loadedCfg p) f) : Int) * 1000000 -
      (((p.tSyncH + p.tSyncL) + (frameBits f).count true * (p.tOneH + p.tOneL) +
        (frameBits f).count false * (p.tZeroH + p.tZeroL) : Nat) : Int) * p.tickHz =
    (tickError p.tickHz p.tSyncH + tickError p.tickHz p.tSyncL) +
      (frameBits f).count true * (tickError p.tickHz p.tOneH + tickError p.tickHz p.tOneL) +
      (frameBits f).count false * (tickError p.tickHz p.tZeroH + tickError p.tickHz p.tZeroL) := by
  simp only [trainTicks_toSignal, loadedCfg, tickError]
  push_cast
  ring

/-- Settles O39: 44 symbols, each off by at most a tick. -/
theorem roundingErrorIsAtMostHalfATick : Obligations.RoundingErrorIsAtMostHalfATick := by
  refine ⟨two_mul_tickError_le, fun p f => ?_⟩
  rw [trainTicks_error]
  have hSync := tickError_add_le p.tickHz p.tSyncH p.tSyncL
  have hOnes := mul_tickError_add_le ((frameBits f).count true) p.tickHz p.tOneH p.tOneL
  have hZeros := mul_tickError_add_le ((frameBits f).count false) p.tickHz p.tZeroH p.tZeroL
  have hCount := count_frameBits f
  omega

/-! ### The admitted constants (R131) -/

/-- The ranges of R131, as propositions. -/
theorem ranges_of_paramsAdmitted {p : Params} (h : paramsAdmitted p = true) :
    p.tSyncH = 1400 ∧ (750 ≤ p.tSyncL ∧ p.tSyncL ≤ 800) ∧ (750 ≤ p.tOneH ∧ p.tOneH ≤ 800) ∧
    (250 ≤ p.tOneL ∧ p.tOneL ≤ 300) ∧ (250 ≤ p.tZeroH ∧ p.tZeroH ≤ 300) ∧ (750 ≤ p.tZeroL ∧ p.tZeroL ≤ 800) := by
  simp only [paramsAdmitted, inRange, Bool.and_eq_true, decide_eq_true_eq] at h
  omega

/-- At one tick per microsecond each count is the constant itself (R133). -/
theorem loadedCfg_of_megahertz {p : Params} (h : p.tickHz = 1000000) :
    loadedCfg p =
      { tickHz := 1000000, syncH := p.tSyncH, syncL := p.tSyncL, oneH := p.tOneH, oneL := p.tOneL,
        zeroH := p.tZeroH, zeroL := p.tZeroL } := by
  simp [loadedCfg, h]

/-- The counts that the defaults give at one tick per microsecond (R131). -/
theorem loadedCfg_default :
    loadedCfg Params.default =
      { tickHz := 1000000, syncH := 1400, syncL := 750, oneH := 750, oneL := 250, zeroH := 250, zeroL := 750 } :=
  loadedCfg_of_megahertz rfl

/-- Settles O48: the ranges of R131 lie below `2 ^ 16`, in the order of R35. -/
theorem admittedConstantsAreWellFormed : Obligations.AdmittedConstantsAreWellFormed := by
  refine ⟨fun p hAdmitted hHz hW => ?_, loadedCfg_default⟩
  have hCfg := loadedCfg_of_megahertz hHz
  have hRanges := ranges_of_paramsAdmitted hAdmitted
  refine ⟨?_, hCfg⟩
  rw [hCfg, hW, wellFormed_iff]
  dsimp only
  omega

/-! ### Trains (R135 to R139) -/

/-- `sym(k)` for `1 ≤ k ≤ 43` (R136). -/
theorem getElem?_toSignal_of_pos (c : Cfg) (f : Frame) {k : Nat} (hk : 1 ≤ k) (hk' : k ≤ 43) :
    (toSignal c f)[k]? = some (symbol c (frameBit f (k - 1))) := by
  obtain ⟨j, rfl⟩ := Nat.exists_eq_add_of_le' hk
  exact getElem?_toSignal_succ c f j (by omega)

/-- Settles O40: position 0 is the sync marker, position `k + 1` bit `k`, and an encoded frame ends in zeros. -/
theorem trainHasOneSymbolPerBit : Obligations.TrainHasOneSymbolPerBit := by
  intro c f
  refine ⟨length_toSignal c f, getElem?_toSignal_zero c f, fun _ => getElem?_toSignal_of_pos c f, fun d k hk hk' => ?_⟩
  rw [getElem?_toSignal_of_pos c _ (by omega) hk', frameBit_encodeFrame_terminator d (by omega)]
  rfl

/-- The high entries of a waveform are the highs of its symbols (R165). -/
theorem high_mem_wave {t : PulseTrain} {n : Nat} : (true, n) ∈ wave t ↔ ∃ y ∈ t, y.high = n := by
  simp [wave, eq_comm]

/-- A symbol of the data is the pair of a one or of a zero (R136). -/
theorem mem_tail_toSignal {c : Cfg} {f : Frame} {y : Symbol} (h : y ∈ (toSignal c f).tail) : ∃ b, y = symbol c b := by
  rw [tail_toSignal] at h
  obtain ⟨b, -, rfl⟩ := List.mem_map.mp h
  exact ⟨b, rfl⟩

/-- A symbol of a train is the sync marker or one of the data. -/
theorem mem_toSignal {c : Cfg} {f : Frame} {y : Symbol} (h : y ∈ toSignal c f) :
    y = syncSymbol c ∨ ∃ b, y = symbol c b :=
  (List.mem_cons.mp h).imp id mem_tail_toSignal

section
variable {c : Cfg} {w : Nat} (hWf : c.wellFormed w = true)
include hWf

/-- The high period alone tells a one from a zero (R35, R137). -/
theorem decide_symbol_high_eq_oneH (b : Bool) : decide ((symbol c b).high = c.oneH) = b := by
  obtain ⟨-, -, -, hHigh, -, -⟩ := wellFormed_iff.mp hWf
  cases b
  · exact decide_eq_false hHigh.ne
  · exact decide_eq_true rfl

/-- The two data symbols differ. -/
theorem symbol_injective : Function.Injective (symbol c) := by
  intro a b h
  rw [← decide_symbol_high_eq_oneH hWf a, h, decide_symbol_high_eq_oneH hWf b]

/-- The frame read back from its train (R137 (c)). -/
theorem frameBits_eq_map_tail (f : Frame) :
    frameBits f = (toSignal c f).tail.map fun y => decide (y.high = c.oneH) := by
  simp [Function.comp_def, decide_symbol_high_eq_oneH hWf]

/-- Different frames have different trains (R137 (c)). -/
theorem toSignal_injective : Function.Injective (toSignal c) := by
  intro f g h
  apply frameBits_injective
  rw [frameBits_eq_map_tail hWf f, h, ← frameBits_eq_map_tail hWf g]

/-- A data symbol's high is at most a one's, which is below the sync marker's (R139). -/
theorem symbol_high_bounds (b : Bool) : (symbol c b).high < c.syncH ∧ (symbol c b).high ≤ c.oneH := by
  obtain ⟨-, -, -, hHigh, hSync, -⟩ := wellFormed_iff.mp hWf
  cases b
  · exact ⟨hHigh.trans hSync, hHigh.le⟩
  · exact ⟨hSync, le_rfl⟩

/-- Every high and every low of a train lasts at least one tick (R35). -/
theorem one_le_of_mem_toSignal {f : Frame} {y : Symbol} (h : y ∈ toSignal c f) : 1 ≤ y.low ∧ 1 ≤ y.high := by
  obtain ⟨⟨hSyncH, hSyncL⟩, ⟨hOneH, hOneL⟩, ⟨hZeroH, hZeroL⟩, -⟩ := wellFormed_iff.mp hWf
  rcases mem_toSignal h with rfl | ⟨_ | _, rfl⟩
  · exact ⟨hSyncL.1, hSyncH.1⟩
  · exact ⟨hZeroL.1, hZeroH.1⟩
  · exact ⟨hOneL.1, hOneH.1⟩

/-- No data symbol is the sync marker (R139). -/
theorem syncSymbol_ne_symbol (b : Bool) : syncSymbol c ≠ symbol c b := fun h =>
  (symbol_high_bounds hWf b).1.ne' (congrArg Symbol.high h)

end

/-- Settles O41: position by position, the two symbols told apart, and the sum over the symbols. -/
theorem trainLaws : Obligations.TrainLaws := by
  refine ⟨fun c f g => ⟨length_toSignal c f, rfl⟩, fun c w f g hWf => ⟨fun i hi => ?_, fun h => ?_, ?_⟩, fun c f => ?_,
    fun f => ?_⟩
  · rw [getElem?_toSignal_succ c f i hi, getElem?_toSignal_succ c g i hi, Option.some_inj,
      (symbol_injective hWf).eq_iff]
  · exact toSignal_injective hWf h
  · exact frameBits_eq_map_tail hWf f
  · rw [trainTicks_toSignal, Nat.sub_eq_of_eq_add' (count_frameBits f).symm]
  · have hCount := count_frameBits f
    rw [trainTicks_toSignal, loadedCfg_default]
    dsimp only
    omega

/-- Settles O42: the bounds on a data symbol's high, for the symbols of the train and of its waveform. -/
theorem syncMarkerIsNotReachableByData : Obligations.SyncMarkerIsNotReachableByData := by
  intro c w f hWf
  have hData : ∀ y ∈ (toSignal c f).tail, y.high < c.syncH ∧ y.high ≤ c.oneH := by
    intro y hy
    obtain ⟨b, rfl⟩ := mem_tail_toSignal hy
    exact symbol_high_bounds hWf b
  refine ⟨rfl, hData, fun y hy => one_le_of_mem_toSignal hWf hy, fun n hn => ?_,
    (symbol_injective hWf).ne (by decide), syncSymbol_ne_symbol hWf true, syncSymbol_ne_symbol hWf false⟩
  obtain ⟨y, hy, rfl⟩ := high_mem_wave.mp hn
  exact (hData y hy).1

end Sys2Proof.Machine
end

section
/-! SUPPORT. The TransmitQueue and the emitter (`spec/42_queue.md`): the enabling conditions of the agents, the
enqueuing operations as one, the next states of the producers' operations and of the completion side, what they leave
as it was, the line, and the obligations about them. -/

namespace Sys2Proof.Machine

/-! ### The enabling conditions of an agent (R205) -/

/-- The conditions on the agent hold for a producer. -/
theorem require_producer {s : State} (hs : s.servesProducer) (go : Result) :
    require (allowed s s.byProducer) go = go :=
  require_of_all (by simpa [allowed] using servesProducer_iff.mp hs)

/-- The conditions on the agent hold for the one agent listed, if that is no producer. -/
theorem require_agent {s : State} {a : Context} (ha : s.agent = a) (hOther : ∀ p, a ≠ .producer p) (go : Result) :
    require (allowed s (decide (s.agent = a))) go = go := by
  subst ha
  exact require_of_all (by simp [allowed, agentExists_of_ne hOther])

/-- The enabling conditions of the queue hold in an operational block (R44, R197). -/
theorem require_running {s : State} (hRun : s.operational) (go : Result) : require (running s) go = go :=
  require_of_all (by simpa [running, State.operational] using hRun)

/-! ### The enqueuing operations (R153, R155) -/

/-- Every enqueuing operation is the `ENQ` of its frame (R155, R108 to R111). -/
theorem exec_of_enqueuedFrame {i : Instr} {f : Frame} (hi : enqueuedFrame i = some f) (s : State) :
    exec i s = exec (.enq f) s := by
  cases i with
  | send id ch ac n =>
    obtain ⟨c, hc, rfl⟩ := Option.map_eq_some_iff.mp hi
    obtain ⟨rfl, rfl, rfl, rfl⟩ := Command.ofPorts_eq_some.mp hc
    exact exec_send_command c s
  | shock id ch n => cases hi; rfl
  | vibrate id ch n => cases hi; rfl
  | beep id ch n => cases hi; rfl
  | light id ch n => cases hi; rfl
  | enq g => cases hi; rfl
  | _ => cases hi

/-- Settles O14: `SEND` of a Command has the frame of its `ENQ`; other nibbles name no Command. -/
theorem sendIsEncodeThenEnq : Obligations.SendIsEncodeThenEnq :=
  ⟨fun s c => exec_of_enqueuedFrame (by simp [enqueuedFrame]) s,
    fun s _ _ _ _ h => exec_send_notACommand (Command.ofPorts_eq_none h) s⟩

section
variable {i : Instr} {f : Frame} {s : State} (hi : enqueuedFrame i = some f) (hs : s.servesProducer)
  (hRun : s.operational)
include hi hs hRun

/-- For a producer of an operational block, only a full queue keeps a frame out (R151). -/
theorem exec_enqueuing : exec i s = if s.hasRoom then settle s (enqueue f s) else .refused .queueFull := by
  rw [exec_of_enqueuedFrame hi, exec, execEnq, require_append, require_append, require_producer hs,
    require_running hRun]
  rfl

section
variable (hRoom : s.roomFor)
include hRoom

/-- A frame enqueued while a transmission is active goes to the back (R153). -/
theorem exec_enqueuing_transmitting (hActive : s.active = true) (hQueue : s.queue ≠ []) :
    exec i s = .next (s.appended f) :=
  (exec_enqueuing_next hi).mpr ⟨hs, hRun, hRoom, .inl (enqueue_ok.mpr (.inl ⟨hActive, hQueue, rfl⟩))⟩

/-- A frame enqueued into an idle queue is started (R153). -/
theorem exec_enqueuing_idle (hIdle : s.active = false) (hQueue : s.queue = []) (hFree : s.emBusy = false) :
    exec i s = .next (s.startedAlone f) :=
  (exec_enqueuing_next hi).mpr
    ⟨hs, hRun, hRoom, .inl (enqueue_ok.mpr (.inr ⟨hIdle, hQueue, hFree, hRun.2, rfl⟩))⟩

end

end

/-- Settles O15: the two next states of an enqueue, with the events of `startedAlone` in one list. -/
theorem enqStartsOrAppends : Obligations.EnqStartsOrAppends := by
  refine ⟨fun s f hs hRun hRoom hIdle hQueue hFree => ?_,
    fun s f hs hRun hRoom hActive hQueue => exec_enqueuing_transmitting rfl hs hRun hRoom hActive hQueue⟩
  rw [exec_enqueuing_idle rfl hs hRun hRoom hIdle hQueue hFree]
  simp [State.startedAlone, State.record, State.started, State.acknowledge]

/-- Settles O16: by `Inv` an idle block has an empty queue and a free emitter, and an active one has a frame queued. -/
theorem enqueuingOperationsComplete : Obligations.EnqueuingOperationsComplete := by
  intro i f s hi hs hRun hRoom hInv
  cases hActive : s.active with
  | false =>
    obtain ⟨hQueue, -, hFree, -⟩ := hInv.quiet_of_idle hActive
    refine ⟨_, exec_enqueuing_idle hi hs hRun hRoom hActive hQueue hFree, ?_⟩
    simp [State.startedAlone, hQueue, hRun.1, hRun.2]
  | true =>
    have hQueue : s.queue ≠ [] := hInv.i1.mp hActive
    refine ⟨_, exec_enqueuing_transmitting hi hs hRun hRoom hActive hQueue, ?_⟩
    simp [State.appended, hActive, hQueue, hRun.1, hRun.2]

/-- A queue of `QDEPTH` entries has no room (R151). -/
theorem hasRoom_eq_false {s : State} {d : Nat} (hDepth : s.par.qdepth = some d) (hFull : d ≤ s.queue.length) :
    s.hasRoom = false := by
  simpa [State.hasRoom, hDepth] using hFull

/-- Settles O17: room is the last condition tested. -/
theorem fullQueueTakesNoFrame : Obligations.FullQueueTakesNoFrame := by
  intro i f s d hi hs hRun hDepth hFull
  rw [exec_enqueuing hi hs hRun, hasRoom_eq_false hDepth hFull]
  rfl

/-! ### `ABORT` and `NOP` (R160, R162) -/

section
variable {s : State} (hs : s.servesProducer)
include hs

/-- Where it is exposed and the block operational, `ABORT` drops the backlog. -/
theorem exec_abort (hRun : s.operational) (hExposed : s.par.hasAbort = true) :
    exec .abort s = settle s (abortBacklog s) := by
  rw [exec, execAbort, require_append, require_append, require_producer hs, require_running hRun, hExposed]
  rfl

/-- A block that does not expose `ABORT` has no step for it (R6). -/
theorem exec_abort_notExposed (hHidden : s.par.hasAbort = false) : exec .abort s = .refused .abortNotExposed := by
  rw [exec, execAbort, require_append, require_append, require_producer hs, hHidden]
  rfl

/-- `NOP` depends on the fault register alone (R162, R197). -/
theorem exec_nop : exec .nop s = if s.healthy then .next s else .refused .halted := by
  rw [exec, execNop, require_append, require_producer hs]
  rfl

end

/-- Settles O18: `ABORT` of a transmitting and of an idle queue, and where it is not exposed. -/
theorem abortDropsOnlyTheBacklog : Obligations.AbortDropsOnlyTheBacklog := by
  refine ⟨fun s front rest hs hRun hExposed hActive hQueue => ?_, fun s hs hRun hExposed hIdle hQueue => ?_,
    fun s hs hHidden => exec_abort_notExposed hs hHidden⟩
  · rw [exec_abort hs hRun hExposed, abortBacklog_ok.mpr (.inl ⟨front, rest, hActive, hQueue, rfl⟩)]
    rfl
  · rw [exec_abort hs hRun hExposed, abortBacklog_ok.mpr (.inr ⟨hIdle, hQueue, rfl⟩)]
    rfl

/-- Settles O20: the two values of `healthy` in `exec_nop`. -/
theorem nopChangesNothing : Obligations.NopChangesNothing :=
  ⟨fun _ hs hHealthy => (exec_nop hs).trans (if_pos (healthy_iff.mpr hHealthy)),
    fun _ hs hFault => (exec_nop hs).trans (if_neg (mt healthy_iff.mp hFault))⟩

/-! ### The producers never wait (R163) -/

/-- Once configured, an enqueue is done or raises. -/
theorem enqueue_ok_or_raised {s : State} (hInit : s.initialised = true) (f : Frame) :
    (∃ t, enqueue f s = .ok t) ∨ enqueue f s = .error .raised := by
  cases hActive : s.active with
  | true =>
    by_cases hQueue : s.queue = []
    · exact .inr (enqueue_raised.mpr (.inl ⟨hActive, hQueue⟩))
    · exact .inl ⟨_, enqueue_ok.mpr (.inl ⟨hActive, hQueue, rfl⟩)⟩
  | false =>
    by_cases hWork : s.queue ≠ [] ∨ s.emBusy = true
    · exact .inr (enqueue_raised.mpr (.inr ⟨hActive, hWork⟩))
    · obtain ⟨hQueue, hFree⟩ : s.queue = [] ∧ s.emBusy = false := by simpa using hWork
      exact .inl ⟨_, enqueue_ok.mpr (.inr ⟨hActive, hQueue, hFree, hInit, rfl⟩)⟩

/-- `ABORT` is done or raises. -/
theorem abortBacklog_ok_or_raised (s : State) :
    (∃ t, abortBacklog s = .ok t) ∨ abortBacklog s = .error .raised := by
  cases hActive : s.active with
  | true =>
    cases hQueue : s.queue with
    | nil => exact .inr (abortBacklog_raised.mpr (.inl ⟨hActive, hQueue⟩))
    | cons front rest => exact .inl ⟨_, abortBacklog_ok.mpr (.inl ⟨front, rest, hActive, hQueue, rfl⟩)⟩
  | false =>
    by_cases hQueue : s.queue = []
    · exact .inl ⟨_, abortBacklog_ok.mpr (.inr ⟨hActive, hQueue, rfl⟩)⟩
    · exact .inr (abortBacklog_raised.mpr (.inr ⟨hActive, hQueue⟩))

/-- An operation that is done or raises has a step. -/
theorem exists_settle_next {s : State} {a : Atomic} (h : (∃ t, a = .ok t) ∨ a = .error .raised) :
    ∃ t, settle s a = .next t := by
  rcases h with ⟨t, rfl⟩ | rfl
  · exact ⟨t, rfl⟩
  · exact ⟨s.raiseInvariantViolation, rfl⟩

/-- A producer's queue operation with operands its rule admits enqueues a frame or is `ABORT` (R205). -/
theorem enqueuedFrame_or_abort {i : Instr} (hi : producerOp i = true) (hWf : i.wellFormed = true) :
    (∃ f, enqueuedFrame i = some f) ∨ i = .abort := by
  cases i with
  | send id ch ac n =>
    obtain ⟨c, hc⟩ := Command.ofPorts_of_legal (id := id) (n := n) hWf
    exact .inl ⟨encodeFrame c, by simp [enqueuedFrame, hc]⟩
  | shock id ch n => exact .inl ⟨_, rfl⟩
  | vibrate id ch n => exact .inl ⟨_, rfl⟩
  | beep id ch n => exact .inl ⟨_, rfl⟩
  | light id ch n => exact .inl ⟨_, rfl⟩
  | enq f => exact .inl ⟨f, rfl⟩
  | abort => exact .inr rfl
  | _ => cases hi

/-- Settles O21: with room and configured, an enqueue and `ABORT` can only be done or raise. -/
theorem producersNeverWait : Obligations.ProducersNeverWait := by
  intro i s hi hWf hs hRun hRoom hExposed
  rcases enqueuedFrame_or_abort hi hWf with ⟨f, hf⟩ | rfl
  · rw [exec_enqueuing hf hs hRun, if_pos (hasRoom_iff.mpr hRoom)]
    exact exists_settle_next (enqueue_ok_or_raised hRun.2 f)
  · rw [exec_abort hs hRun hExposed]
    exact exists_settle_next (abortBacklog_ok_or_raised s)

/-! ### What the operations leave as it was -/

/-- No operation writes the surroundings. -/
theorem Effect.sameSurroundings {i : Instr} {s t : State} (he : Effect s i t) : s.sameSurroundings t := by
  cases he <;> exact ⟨rfl, rfl, rfl, rfl⟩

/-- A pure function is no operation of a producer on the queue (R82). -/
theorem pureOp_eq_false_of_producerOp {i : Instr} (hi : producerOp i = true) : pureOp i = false := by
  cases i <;> simp_all [producerOp, pureOp]

/-- Only the pure functions put results on their ports (R43). -/
theorem Effect.samePureResults {i : Instr} {s t : State} (he : Effect s i t) (hi : pureOp i = false) :
    s.samePureResults t := by
  cases he with
  | drive hPure => simp [hi] at hPure
  | _ => exact ⟨rfl, rfl, rfl, rfl, rfl, rfl⟩

/-- Settles O22: of each effect of a producer's operation, the rest of the block; those that enqueue are no `ABORT`. -/
theorem producerOperationsFrame : Obligations.ProducerOperationsFrame := by
  intro i s t hProducer h
  have he := effect_of_exec h
  have hPure := pureOp_eq_false_of_producerOp hProducer
  have hSame := he.sameSurroundings
  have hResults := he.samePureResults hPure
  cases he with
  | append hi =>
    refine ⟨rfl, rfl, rfl, hSame, hResults, .inl rfl, ?_⟩
    rintro rfl
    cases hi
  | startIdle hi =>
    refine ⟨rfl, rfl, rfl, hSame, hResults, .inl rfl, ?_⟩
    rintro rfl
    cases hi
  | dropBacklog => exact ⟨rfl, rfl, rfl, hSame, hResults, .inl rfl, fun _ => ⟨rfl, rfl, rfl, rfl⟩⟩
  | dropNothing => exact ⟨rfl, rfl, rfl, hSame, hResults, .inl rfl, fun _ => ⟨rfl, rfl, rfl, rfl⟩⟩
  | raise => exact ⟨rfl, rfl, rfl, hSame, hResults, .inr rfl, fun _ => ⟨rfl, rfl, rfl, rfl⟩⟩
  | drive hi => simp [hi] at hPure
  | _ => cases hProducer

/-- Settles O27: of each effect of the three operations, the rest of the block. Each is enabled only without a fault
recorded, so one that raises changes `fault`. -/
theorem completionSideFrame : Obligations.CompletionSideFrame := by
  rintro i s t hi h
  have he := effect_of_exec h
  have hSame := he.sameSurroundings
  rcases hi with rfl | rfl | ⟨f, rfl⟩
  · obtain ⟨-, ⟨hHealthy, -⟩, -⟩ := exec_complete_next.mp h
    have hResults := he.samePureResults rfl
    cases he with
    | raise => exact ⟨rfl, rfl, hSame, hResults, by simp [hHealthy], by simp, by simp⟩
    | append hi => cases hi
    | startIdle hi => cases hi
    | drive hi => cases hi
    | _ => exact ⟨rfl, rfl, hSame, hResults, fun _ => rfl, by simp, by simp⟩
  · obtain ⟨-, -, -, rfl⟩ := exec_emitDone_next.mp h
    exact ⟨rfl, rfl, hSame, he.samePureResults rfl, fun _ => rfl, fun _ => ⟨rfl, rfl, rfl, rfl, rfl⟩, by simp⟩
  · obtain ⟨-, hHealthy, ⟨-, -, rfl⟩ | ⟨-, rfl⟩⟩ := exec_start_next.mp h
    · exact ⟨rfl, rfl, hSame, he.samePureResults rfl, fun _ => rfl, by simp, fun _ => ⟨rfl, rfl, rfl⟩⟩
    · exact ⟨rfl, rfl, hSame, he.samePureResults rfl, by simp [hHealthy], by simp, fun _ => ⟨rfl, rfl, rfl⟩⟩

/-- Settles O31: every other effect keeps the latch or sets it. -/
theorem notificationIsNeverLost : Obligations.NotificationIsNeverLost := by
  intro i s t h hDone hClear
  cases effect_of_exec h with
  | completeLast => exact .inl rfl
  | completeNext => exact .inl rfl
  | reset => exact .inr rfl
  | emitDone => cases hClear
  | _ => cases hDone.symm.trans hClear

/-- Settles O33: the effects that start a train find the emitter free, and `RESET` without a fault finds it idle. -/
theorem trainInFlightIsNeverReplaced : Obligations.TrainInFlightIsNeverReplaced := by
  intro i s t h hBusy
  cases effect_of_exec h with
  | startIdle hi hRoom hIdle hQueue hFree => cases hBusy.symm.trans hFree
  | completeNext hDone hActive hQueue hFree => cases hBusy.symm.trans hFree
  | start hInside hFree => cases hBusy.symm.trans hFree
  | emitDone => exact .inr (.inl rfl)
  | reset =>
    obtain ⟨-, hFault | ⟨-, -, hFree, -⟩, -⟩ := exec_reset_next.mp h
    · exact .inr (.inr ⟨rfl, hFault⟩)
    · cases hBusy.symm.trans hFree
  | _ => exact .inl ⟨hBusy, rfl⟩

/-! ### The completion side where it is enabled (R156, R158, R159) -/

section
variable {s : State}

/-- Inside another operation and with no fault recorded, `START` is tried (R156). -/
theorem exec_start (hInside : s.agent = .inside) (hHealthy : s.fault = .none) (f : Frame) :
    exec (.start f) s = settle s (startEmitter f s) := by
  rw [exec, execStart, require_append, require_agent hInside (by simp), healthy_iff.mpr hHealthy]
  rfl

/-- A `START` that is neither over a busy emitter nor configured reads what `INIT` has not written (R233). -/
theorem startEmitter_unconfigured (hFree : s.emBusy = false) (hInit : s.initialised = false) (f : Frame) :
    startEmitter f s = .error (.forbidden .configurationUnwritten) := by
  simp [startEmitter, hFree, hInit]

/-- For the emitter, `EMIT_DONE` depends on the fault and on there being a train (R158). -/
theorem exec_emitDone (hEmitter : s.agent = .emitter) :
    exec .emitDone s =
      if s.healthy then if s.emBusy then .next s.emissionDone else .refused .emitterIdle else .refused .halted := by
  rw [exec, execEmitDone, require_append, require_agent hEmitter (by simp)]
  rfl

/-- In an operational block `COMPLETE` depends on the latch (R159, R161). -/
theorem exec_complete (hCompletion : s.agent = .completion) (hRun : s.operational) :
    exec .complete s = if s.donePending then settle s (completeFront s) else .next s := by
  rw [exec, execComplete, require_append, require_agent hCompletion (by simp), require_running hRun]

end

/-- Settles O23: a free emitter, a busy one, and a free one that is not configured. -/
theorem startHandsTheTrainToAFreeEmitter : Obligations.StartHandsTheTrainToAFreeEmitter := by
  refine ⟨fun s f hInside hRun hFree => ?_, fun s f hInside hHealthy hBusy => ?_,
    fun s f hInside hHealthy hFree hInit => ?_⟩
  · rw [exec_start hInside hRun.1, startEmitter_ok.mpr ⟨hFree, hRun.2, rfl⟩]
    rfl
  · rw [exec_start hInside hHealthy, startEmitter_raised.mpr hBusy]
    rfl
  · rw [exec_start hInside hHealthy, startEmitter_unconfigured hFree hInit]
    rfl

/-- Settles O24: the three cases of `exec_emitDone`. -/
theorem emitDoneRaisesTheNotification : Obligations.EmitDoneRaisesTheNotification := by
  refine ⟨fun s hEmitter hHealthy hBusy => ?_, fun s hEmitter hHealthy hFree => ?_, fun s hEmitter hFault => ?_⟩
  · rw [exec_emitDone hEmitter, if_pos (healthy_iff.mpr hHealthy), if_pos hBusy]
    rfl
  · rw [exec_emitDone hEmitter, if_pos (healthy_iff.mpr hHealthy), hFree]
    rfl
  · rw [exec_emitDone hEmitter, if_neg (mt healthy_iff.mp hFault)]

/-- Settles O25: the latch is clear in `exec_complete`. -/
theorem completeWithoutNotificationChangesNothing : Obligations.CompleteWithoutNotificationChangesNothing := by
  intro s hCompletion hRun hDone
  rw [exec_complete hCompletion hRun, hDone]
  rfl

/-- Settles O26: the two ways in which `completeFront` is done. -/
theorem completeAdvancesTheQueue : Obligations.CompleteAdvancesTheQueue := by
  refine ⟨fun s front hCompletion hRun hDone hActive hQueue => ?_,
    fun s front second rest hCompletion hRun hDone hActive hFree hQueue => ?_⟩
  · rw [exec_complete hCompletion hRun, if_pos hDone, completeFront_ok.mpr (.inl ⟨front, hActive, hQueue, rfl⟩)]
    rfl
  · rw [exec_complete hCompletion hRun, if_pos hDone,
      completeFront_ok.mpr (.inr ⟨front, second, rest, hActive, hQueue, hFree, hRun.2, rfl⟩)]
    simp [settle, State.record, State.started]

/-! ### The line (R165) -/

/-- The durations of a waveform add up to the length of its train (R137, R165). -/
theorem sum_wave (t : PulseTrain) : ((wave t).map Prod.snd).sum = trainTicks t := by
  induction t with
  | nil => rfl
  | cons y t ih => simp [ih, add_assoc]

/-- A train ends low (R165). -/
theorem getLast?_wave_toSignal (c : Cfg) (f : Frame) :
    (wave (toSignal c f)).getLast?.map Prod.fst = some false := by
  have hLast : (wave (toSignal c f))[2 * 43 + 1]? = (toSignal c f)[43]?.map fun y => (false, y.low) :=
    (getElem?_wave _ 43).2
  rw [List.getLast?_eq_getElem?, length_wave, length_toSignal, hLast, getElem?_toSignal_succ c f 42 (by omega)]
  rfl

/-- Settles O44: the two values of `em_busy`, and the waveform symbol by symbol. -/
theorem lineCarriesTheTrainInFlight : Obligations.LineCarriesTheTrainInFlight := by
  refine ⟨fun s hFree => by simp [State.line, hFree], fun s hBusy => by simp [State.line, hBusy], fun c f => ?_⟩
  refine ⟨by simp, ?_, getLast?_wave_toSignal c f, fun k _ => getElem?_wave _ k, sum_wave _⟩
  rw [toSignal, wave_cons]
  rfl

end Sys2Proof.Machine
end

section
/-! SUPPORT. Liveness of the queue (`spec/42_queue.md`, R166): what an operation does to the queue when the producers
have stopped, the rounds of one schedule, the fair runs, and the obligations about them. -/

namespace Sys2Proof.Machine

/-! ### An operation while the producers have stopped -/

/-- What an operation that is no producer's can do to the queue. Tied to `exec` by `drainStep_of_exec`. -/
inductive DrainStep (s : State) : Instr → State → Prop
  /-- `COMPLETE` of a notification takes the front entry (R159). -/
  | complete {front : Frame} {t : State} (hDone : s.donePending = true) (hQueue : s.queue = front :: t.queue)
      (hLog : completedFrames t.log = completedFrames s.log ++ [front]) : DrainStep s .complete t
  /-- `EMIT_DONE` frees the emitter (R158). -/
  | emitDone {t : State} (hBusy : s.emBusy = true) (hFree : t.emBusy = false) (hQueue : t.queue = s.queue)
      (hLog : completedFrames t.log = completedFrames s.log) : DrainStep s .emitDone t
  /-- Every other operation leaves the queue and the emitter, and the history unless nothing is queued (`RESET`). -/
  | keep {i : Instr} {t : State} (hEmitDone : i ≠ .emitDone) (hComplete : i = .complete → s.donePending = false)
      (hQueue : t.queue = s.queue) (hBusy : t.emBusy = s.emBusy)
      (hLog : s.queue ≠ [] → completedFrames t.log = completedFrames s.log) : DrainStep s i t

/-- Under the invariant, every operation outside `inside` that is no producer's is a `DrainStep`. -/
theorem drainStep_of_exec {i : Instr} {s t : State} (h : exec i s = .next t) (hInv : s.Inv)
    (hOutside : s.agent ≠ .inside) (hStopped : producerOp i = false) : DrainStep s i t := by
  cases effect_of_exec h with
  | append hi => simp [producerOp_of_enqueuedFrame hi] at hStopped
  | startIdle hi => simp [producerOp_of_enqueuedFrame hi] at hStopped
  | dropBacklog => cases hStopped
  | dropNothing => cases hStopped
  | completeLast hDone hActive hQueue => exact .complete hDone hQueue (completedFrames_complete _ _)
  | completeNext hDone hActive hQueue hFree =>
    refine .complete hDone hQueue ?_
    rw [State.started_log, completedFrames_start, State.record_log, completedFrames_complete]
  | completeNothing hDone => exact .keep (by simp) (fun _ => hDone) rfl rfl fun _ => rfl
  | emitDone hBusy => exact .emitDone hBusy rfl rfl (completedFrames_done _ _)
  | start hInside => exact absurd hInside hOutside
  | raise hi hCause => exact absurd hCause (by simp [hOutside, hInv.not_disagrees])
  | reset =>
    obtain ⟨-, hFault | ⟨hQueue, -, hFree, -⟩, -⟩ := exec_reset_next.mp h
    · exact absurd hInv.healthy hFault
    · exact .keep (by simp) (by simp) hQueue.symm hFree.symm fun hSome => absurd hQueue hSome
  | init => exact .keep (by simp) (by simp) rfl rfl fun _ => rfl
  | nop => exact .keep (by simp) (by simp) rfl rfl fun _ => rfl
  | drive hi => exact .keep (by rintro rfl; cases hi) (by rintro rfl; cases hi) rfl rfl fun _ => rfl

/-- The measure of R166: each `EMIT_DONE`, and each `COMPLETE` of a notification, lowers it. -/
def State.workLeft (s : State) : Nat := 2 * s.queue.length + s.emBusy.toNat

/-- The measure's parity is the emitter's flag. -/
theorem emBusy_eq_of_workLeft_eq {s t : State} (h : t.workLeft = s.workLeft) : t.emBusy = s.emBusy := by
  have hs := Bool.toNat_le s.emBusy
  have ht := Bool.toNat_le t.emBusy
  unfold State.workLeft at h
  exact Function.LeftInverse.injective Bool.ofNat_toNat (by omega)

section
variable {i : Instr} {s t : State} (h : DrainStep s i t)
include h

/-- The emitter and the completion context make progress. -/
theorem DrainStep.workLeft_lt (hi : i = .emitDone ∨ i = .complete ∧ s.donePending = true) :
    t.workLeft < s.workLeft := by
  cases h with
  | complete hDone hQueue hLog =>
    have hLe := Bool.toNat_le t.emBusy
    simp only [State.workLeft, hQueue, List.length_cons]
    omega
  | emitDone hBusy hFree hQueue hLog => simp [State.workLeft, hQueue, hBusy, hFree]
  | keep hEmitDone hComplete hQueue hBusy hLog =>
    obtain hi | ⟨hi, hDone⟩ := hi
    · exact absurd hi hEmitDone
    · cases hDone.symm.trans (hComplete hi)

/-- No operation adds work once the producers have stopped. -/
theorem DrainStep.workLeft_le : t.workLeft ≤ s.workLeft := by
  cases h with
  | complete hDone hQueue hLog => exact ((DrainStep.complete hDone hQueue hLog).workLeft_lt (.inr ⟨rfl, hDone⟩)).le
  | emitDone hBusy hFree hQueue hLog =>
    exact ((DrainStep.emitDone hBusy hFree hQueue hLog).workLeft_lt (.inl rfl)).le
  | keep hEmitDone hComplete hQueue hBusy hLog => rw [State.workLeft, hQueue, hBusy, State.workLeft]

/-- Exactly the `COMPLETE`s of a notification shorten the queue, by one entry each. -/
theorem DrainStep.length_queue :
    (if i = .complete ∧ s.donePending = true then 1 else 0) + t.queue.length = s.queue.length := by
  cases h with
  | complete hDone hQueue hLog => simp [hDone, hQueue, add_comm]
  | emitDone hBusy hFree hQueue hLog => simp [hQueue]
  | keep hEmitDone hComplete hQueue hBusy hLog => simp +contextual [hQueue, hComplete]

/-- While something is queued, the completed frames with the queue behind them stay the same sequence. -/
theorem DrainStep.completed_append_queue (hSome : s.queue ≠ []) :
    completedFrames t.log ++ t.queue = completedFrames s.log ++ s.queue := by
  cases h with
  | complete hDone hQueue hLog => simp [hLog, hQueue]
  | emitDone hBusy hFree hQueue hLog => rw [hLog, hQueue]
  | keep hEmitDone hComplete hQueue hBusy hLog => rw [hLog hSome, hQueue]

end

/-! ### The invariant in the two phases of the front entry -/

section
variable {s : State} (h : s.Inv)
include h

/-- The context in which an operation is performed is no part of the block. -/
theorem State.Inv.by (a : Context) : (s.by a).Inv :=
  h.of_sameBlock ⟨rfl, rfl, rfl, rfl, rfl, rfl, rfl, rfl, rfl⟩ rfl

/-- With nothing queued the block is quiet. -/
theorem State.Inv.quiet_of_queue (hQueue : s.queue = []) : s.quiet :=
  h.quiet_of_idle (by simpa [hQueue] using h.i1)

/-- With an entry queued, the block is initialised. -/
theorem State.Inv.operational_of_queue (hSome : s.queue ≠ []) : s.operational :=
  ⟨h.healthy, by simpa using mt h.beforeInit hSome⟩

/-- An entry whose train is over waits for its notification to be handled. -/
theorem State.Inv.donePending_of_free (hSome : s.queue ≠ []) (hFree : s.emBusy = false) : s.donePending = true := by
  obtain ⟨hBusy, -⟩ | ⟨-, hDone⟩ := h.i2 (h.i1.mpr hSome)
  · cases hBusy.symm.trans hFree
  · exact hDone

/-- A pending notification is that of the front entry. -/
theorem State.Inv.active_of_donePending (hDone : s.donePending = true) : s.active = true := by
  by_contra hIdle
  cases hDone.symm.trans (h.i3 (by simpa using hIdle)).2

/-- Nothing is left to do exactly if nothing is queued. -/
theorem State.Inv.workLeft_eq_zero : s.workLeft = 0 ↔ s.queue = [] := by
  refine ⟨fun hZero => ?_, fun hQueue => ?_⟩
  · unfold State.workLeft at hZero
    exact List.length_eq_zero_iff.mp (by omega)
  · obtain ⟨-, -, hFree, -⟩ := h.quiet_of_queue hQueue
    simp [State.workLeft, hQueue, hFree]

end

/-! ### The rounds of one schedule -/

/-- `t` is a state of the invariant in which the front entry of `s` has been completed. -/
structure State.CompletesFront (s t : State) : Prop where
  inv : t.Inv
  length : t.queue.length + 1 = s.queue.length
  frames : completedFrames t.log ++ t.queue = completedFrames s.log ++ s.queue

/-- `COMPLETE` of a notification has a step under the invariant (R159). -/
theorem exists_exec_complete {s : State} (h : s.Inv) (hDone : s.donePending = true) :
    ∃ t, exec .complete (s.by .completion) = .next t := by
  have hActive := h.active_of_donePending hDone
  have hRun := h.operational_of_queue (h.i1.mp hActive)
  match hQueue : s.queue, h.i1.mp hActive with
  | [front], _ => exact ⟨_, exec_complete_last hRun hActive hDone hQueue⟩
  | front :: second :: rest, _ => exact ⟨_, exec_complete_more hRun hActive hDone (h.i4 hDone) hQueue⟩

/-- `COMPLETE` of a notification completes the front entry. -/
theorem exec_complete_completesFront {s : State} (h : s.Inv) (hDone : s.donePending = true) :
    ∃ t, exec .complete (s.by .completion) = .next t ∧ s.CompletesFront t := by
  obtain ⟨t, hExec⟩ := exists_exec_complete h hDone
  have hStep := drainStep_of_exec hExec (h.by _) (by simp) rfl
  refine ⟨t, hExec, (effect_of_exec hExec).inv (h.by _) (by simp), ?_, ?_⟩
  · simpa [hDone, add_comm] using hStep.length_queue
  · exact hStep.completed_append_queue (h.i1.mp (h.active_of_donePending hDone))

/-- A round completes the front entry, whether its train is being emitted or is over. -/
theorem drainRound_completesFront {s : State} (h : s.Inv) (hSome : s.queue ≠ []) :
    ∃ t, drainRound s = .next t ∧ s.CompletesFront t := by
  cases hBusy : s.emBusy with
  | false =>
    rw [drainRound, hBusy]
    exact exec_complete_completesFront h (h.donePending_of_free hSome hBusy)
  | true =>
    have hEmit : exec .emitDone (s.by .emitter) = .next (s.by .emitter).emissionDone :=
      exec_emitDone_next.mpr ⟨rfl, h.healthy, hBusy, rfl⟩
    obtain ⟨t, hExec, hInv, hLength, hFrames⟩ :=
      exec_complete_completesFront ((h.by .emitter).emissionDone hBusy) rfl
    refine ⟨t, ?_, hInv, hLength, by simpa using hFrames⟩
    rw [drainRound, if_pos hBusy, hEmit, andThen_next, hExec]

/-- As many rounds as there are entries complete the queue in order. -/
theorem drain_completes {n : Nat} {s : State} (h : s.Inv) (hLength : s.queue.length = n) :
    ∃ t, drain n s = .next t ∧ t.Inv ∧ t.queue = [] ∧
      completedFrames t.log = completedFrames s.log ++ s.queue := by
  induction n generalizing s with
  | zero =>
    have hQueue := List.length_eq_zero_iff.mp hLength
    exact ⟨s, rfl, h, hQueue, by simp [hQueue]⟩
  | succ n ih =>
    obtain ⟨u, hRound, hFront⟩ := drainRound_completesFront h (List.ne_nil_of_length_eq_add_one hLength)
    obtain ⟨t, hDrain, hInv, hQueue, hFrames⟩ := ih hFront.inv (by have := hFront.length; omega)
    refine ⟨t, ?_, hInv, hQueue, hFrames.trans hFront.frames⟩
    rw [drain, hRound, andThen_next, hDrain]

/-- Settles O54: the rounds complete the queue, and with nothing queued what has survived has been started (I6). -/
theorem queueDrainsInOrder : Obligations.QueueDrainsInOrder := by
  intro s h _
  obtain ⟨t, hDrain, hInv, hQueue, hFrames⟩ := drain_completes h rfl
  refine ⟨t, hDrain, hInv.quiet_of_queue hQueue, hInv.healthy, hFrames, ?_⟩
  rw [hInv.historyStarted, hQueue, hFrames, h.historyKept]
  exact List.append_nil _

/-! ### The fair runs -/

/-- An operation of a producer on the queue is performed for a producer only (R205). -/
theorem servesProducer_of_exec {i : Instr} {s t : State} (h : exec i s = .next t) (hi : producerOp i = true) :
    s.servesProducer := by
  rcases exec_next_cases h with
    (⟨f, -, hs, -⟩ | ⟨-, hs, -⟩ | ⟨rfl, -⟩ | ⟨rfl, -⟩ | ⟨f, rfl, -⟩) | (⟨rfl, -⟩ | ⟨rfl, -⟩ | ⟨-, hs, -⟩ | ⟨hPure, -⟩)
  · exact hs
  · exact hs
  · cases hi
  · cases hi
  · cases hi
  · cases hi
  · cases hi
  · exact hs
  · simp [pureOp_eq_false_of_producerOp hi] at hPure

/-- Each agent has a context of its own (R205). -/
theorem context_injective : Function.Injective Agent.context := by
  intro a b h
  cases a <;> cases b <;> simp_all [Agent.context]

/-- A request that is no producer's work presents no operation of a producer on the queue. -/
theorem producerOp_eq_false_of_exec {r : Request} {i : Instr} {s t : State} {p : List (List Request)}
    (hr : producerWork r = false) (hDecode : decode r.word = .ok i) (h : exec i (s.serving r.agent p) = .next t) :
    producerOp i = false := by
  by_contra hi
  obtain ⟨q, hAgent, -⟩ := servesProducer_of_exec h (by simpa using hi)
  have hProducer : r.agent = .producer q := context_injective hAgent
  have hNop : i = .nop := by simpa [producerWork, hProducer, hDecode] using hr
  simp [hNop, producerOp] at hi

/-- `COMPLETE` is performed for the completion context only (R205). -/
theorem agent_eq_completion_of_exec {s t : State} {a : Agent} {p : List (List Request)}
    (h : exec .complete (s.serving a p) = .next t) : a = .completion :=
  context_injective (exec_complete_next.mp h).1

/-- Serving a request changes nothing that a `DrainStep` speaks of. -/
theorem DrainStep.of_serving {i : Instr} {s t : State} {a : Agent} {p : List (List Request)}
    (h : DrainStep (s.serving a p) i t) : DrainStep s i t := by
  cases h with
  | complete hDone hQueue hLog => exact .complete hDone hQueue hLog
  | emitDone hBusy hFree hQueue hLog => exact .emitDone hBusy hFree hQueue hLog
  | keep hEmitDone hComplete hQueue hBusy hLog => exact .keep hEmitDone hComplete hQueue hBusy hLog

section
variable {ρ : Run} (hLegal : ρ.Legal) (hInv : (ρ.state 0).Inv)
include hLegal hInv

/-- Every instant of a legal run keeps the invariant. -/
theorem Run.Legal.inv (n : Nat) : (ρ.state n).Inv := by
  induction n with
  | zero => exact hInv
  | succ n ih =>
    cases hServed : ρ.served n with
    | none =>
      obtain ⟨p, hNext⟩ := hLegal.idle n hServed
      rw [hNext]
      exact ih.of_sameBlock ⟨rfl, rfl, rfl, rfl, rfl, rfl, rfl, rfl, rfl⟩ rfl
    | some k =>
      obtain ⟨r, i, p, -, -, -, hExec⟩ := hLegal.performed hServed
      exact (effect_of_exec hExec).inv (ih.serving r.agent p) (by simp)

variable (hStopped : ρ.producersStopped)
include hStopped

/-- Every instant is a `DrainStep` of the operation performed; one at which no agent steps counts as `NOP`. -/
theorem Run.Legal.drainStep (n : Nat) :
    ∃ i, DrainStep (ρ.state n) i (ρ.state (n + 1)) ∧ (∀ a j, ρ.performed n = some (a, j) → j = i) ∧
      (i = .complete → ρ.performed n = some (.completion, .complete)) := by
  cases hServed : ρ.served n with
  | none =>
    obtain ⟨p, hNext⟩ := hLegal.idle n hServed
    refine ⟨.nop, ?_, by simp [Run.performed_of_idle hServed], by simp⟩
    rw [hNext]
    exact .keep (by simp) (by simp) rfl rfl fun _ => rfl
  | some k =>
    obtain ⟨r, i, p, hr, hPerformed, hDecode, hExec⟩ := hLegal.performed hServed
    have hi := producerOp_eq_false_of_exec (hStopped n r hr) hDecode hExec
    have hStep := drainStep_of_exec hExec ((hLegal.inv hInv n).serving r.agent p) (by simp) hi
    refine ⟨i, hStep.of_serving, by simp +contextual [hPerformed], ?_⟩
    rintro rfl
    rw [hPerformed, agent_eq_completion_of_exec hExec]

/-- No work is added during the run. -/
theorem Run.Legal.antitone_workLeft : Antitone fun n => (ρ.state n).workLeft :=
  antitone_nat_of_succ_le fun n => by
    obtain ⟨i, hStep, -⟩ := hLegal.drainStep hInv hStopped n
    exact hStep.workLeft_le

/-- The handled notifications and the entries still queued make up the first queue. -/
theorem Run.Legal.handled_add_length (n : Nat) :
    ρ.handled n + (ρ.state n).queue.length = (ρ.state 0).queue.length := by
  induction n with
  | zero => exact Nat.zero_add _
  | succ n ih =>
    obtain ⟨i, hStep, hEq, hComplete⟩ := hLegal.drainStep hInv hStopped n
    have hIff : ρ.performed n = some (.completion, .complete) ↔ i = .complete := ⟨fun h => (hEq _ _ h).symm, hComplete⟩
    rw [Run.handled_succ, add_assoc]
    simp only [hIff]
    rw [hStep.length_queue, ih]

/-- Until the queue is empty, the completed frames with the queue behind them stay the same sequence. -/
theorem Run.Legal.completed_append_queue {n : Nat} (hBefore : ∀ m < n, (ρ.state m).queue ≠ []) :
    completedFrames (ρ.state n).log ++ (ρ.state n).queue =
      completedFrames (ρ.state 0).log ++ (ρ.state 0).queue := by
  induction n with
  | zero => rfl
  | succ n ih =>
    obtain ⟨i, hStep, -⟩ := hLegal.drainStep hInv hStopped n
    rw [hStep.completed_append_queue (hBefore n n.lt_succ_self)]
    exact ih fun m hm => hBefore m (hm.trans n.lt_succ_self)

/-- With nothing queued the block is quiescent and every notification has been handled. -/
theorem Run.Legal.quiescent_of_queue {n : Nat} (hQueue : (ρ.state n).queue = []) :
    (ρ.state n).quiescentWith (ρ.ports n) ∧ ρ.handled n = (ρ.state 0).queue.length := by
  have hI := hLegal.inv hInv n
  refine ⟨⟨hI.healthy, hI.quiet_of_queue hQueue, hStopped n⟩, ?_⟩
  simpa [hQueue] using hLegal.handled_add_length hInv hStopped n

/-- Once the queue is empty it stays so. -/
theorem Run.Legal.queue_eq_nil_of_le {n m : Nat} (hQueue : (ρ.state n).queue = []) (hm : n ≤ m) :
    (ρ.state m).queue = [] := by
  have hZero := (hLegal.inv hInv n).workLeft_eq_zero.mpr hQueue
  have hLe : (ρ.state m).workLeft ≤ (ρ.state n).workLeft := hLegal.antitone_workLeft hInv hStopped hm
  exact (hLegal.inv hInv m).workLeft_eq_zero.mp (by omega)

/-- From some instant on, the work that is left is constant. -/
theorem Run.Legal.exists_workLeft_constant : ∃ n, ∀ m, n ≤ m → (ρ.state m).workLeft = (ρ.state n).workLeft :=
  ⟨Function.argmin fun n => (ρ.state n).workLeft, fun m hm =>
    le_antisymm (hLegal.antitone_workLeft hInv hStopped hm) (Function.argmin_le (fun n => (ρ.state n).workLeft) m)⟩

/-- At an instant after which as much work is left as before, neither the emitter nor a notification was served. -/
theorem Run.Legal.not_performed_of_workLeft_eq {n : Nat}
    (hSame : (ρ.state (n + 1)).workLeft = (ρ.state n).workLeft) :
    ρ.performed n ≠ some (.emitter, .emitDone) ∧
      ((ρ.state n).donePending = true → ρ.performed n ≠ some (.completion, .complete)) := by
  obtain ⟨i, hStep, hEq, -⟩ := hLegal.drainStep hInv hStopped n
  refine ⟨fun h => ?_, fun hDone h => ?_⟩
  · exact (hStep.workLeft_lt (.inl (hEq _ _ h).symm)).ne hSame
  · exact (hStep.workLeft_lt (.inr ⟨(hEq _ _ h).symm, hDone⟩)).ne hSame

/-- Fairness empties the queue: while the work that is left is constant, so is the phase of the front entry, and the
agent whose turn it is would be served. -/
theorem Run.Legal.exists_queue_eq_nil (hFair : ρ.Fair) : ∃ n, (ρ.state n).queue = [] := by
  by_contra hNone
  have hSome : ∀ n, (ρ.state n).queue ≠ [] := not_exists.mp hNone
  obtain ⟨n, hConst⟩ := hLegal.exists_workLeft_constant hInv hStopped
  have hIdle (m : Nat) (hm : n ≤ m) := hLegal.not_performed_of_workLeft_eq hInv hStopped
    ((hConst (m + 1) (Nat.le_succ_of_le hm)).trans (hConst m hm).symm)
  have hPhase : ∀ m, n ≤ m → (ρ.state m).emBusy = (ρ.state n).emBusy := fun m hm =>
    emBusy_eq_of_workLeft_eq (hConst m hm)
  have hRun : ∀ m, (ρ.state m).operational := fun m => (hLegal.inv hInv m).operational_of_queue (hSome m)
  cases hBusy : (ρ.state n).emBusy with
  | true =>
    obtain ⟨m, hm, hPerformed⟩ := hFair.emitter n fun m hm => ⟨(hPhase m hm).trans hBusy, (hRun m).1⟩
    exact (hIdle m hm).1 hPerformed
  | false =>
    have hDone : ∀ m, n ≤ m → (ρ.state m).donePending = true := fun m hm =>
      (hLegal.inv hInv m).donePending_of_free (hSome m) ((hPhase m hm).trans hBusy)
    obtain ⟨m, hm, hPerformed⟩ := hFair.completion n fun m hm => ⟨hDone m hm, hRun m⟩
    exact (hIdle m hm).2 (hDone m hm) hPerformed

end

/-- Settles O55: the first instant at which the queue is empty. Before it the frames keep their order, and after it the
queue stays empty. -/
theorem everyFairRunDrains : Obligations.EveryFairRunDrains := by
  intro ρ hLegal hFair hStopped hInv
  have hEmpty := hLegal.exists_queue_eq_nil hInv hStopped hFair
  have hQueue := Nat.find_spec hEmpty
  have hFrames := hLegal.completed_append_queue hInv hStopped fun m hm => Nat.find_min hEmpty hm
  rw [hQueue, List.append_nil] at hFrames
  obtain ⟨hQuiescent, hHandled⟩ := hLegal.quiescent_of_queue hInv hStopped hQueue
  exact ⟨Nat.find hEmpty, hQuiescent, hHandled, hFrames, fun m hm =>
    hLegal.quiescent_of_queue hInv hStopped (hLegal.queue_eq_nil_of_le hInv hStopped hQueue hm)⟩

end Sys2Proof.Machine
end

section
/-! SUPPORT. Faults (`spec/60_exceptions.md`): the error `DECODE` reports, the agents of R205, what raises
`InvariantViolation` and what its entry writes, the halted state, and the obligations of this family. -/

namespace Sys2Proof.Machine

/-! ### The errors of `DECODE` (R190 to R194, R200) -/

/-- `DECODE` tests channel, action and checksum in this order, and its error says which test failed first. -/
theorem decodeBits_error_iff (s : BitSeq) :
    (decodeBits s = .error .invalidChannel ↔ 3 ≤ (field s 16 4).toNat) ∧
    (decodeBits s = .error .invalidAction ↔
      (field s 16 4).toNat ≤ 2 ∧ ((field s 20 4).toNat = 0 ∨ 5 ≤ (field s 20 4).toNat)) ∧
    (decodeBits s = .error .checksumMismatch ↔
      (field s 16 4).toNat ≤ 2 ∧ 1 ≤ (field s 20 4).toNat ∧ (field s 20 4).toNat ≤ 4 ∧ ¬ checksumHolds s) := by
  by_cases hChannel : 3 ≤ (field s 16 4).toNat
  · simp [decodeBits_of_illegalChannel hChannel, hChannel, show ¬ (field s 16 4).toNat ≤ 2 by omega]
  have hChannel' : (field s 16 4).toNat ≤ 2 := by omega
  by_cases hAction : (field s 20 4).toNat = 0 ∨ 5 ≤ (field s 20 4).toNat
  · have hIllegal : ¬ (1 ≤ (field s 20 4).toNat ∧ (field s 20 4).toNat ≤ 4) := by omega
    simp [decodeBits_of_illegalAction hChannel' hAction, hChannel, hChannel', hAction, ← and_assoc, hIllegal]
  have hAction' : 1 ≤ (field s 20 4).toNat ∧ (field s 20 4).toNat ≤ 4 := by omega
  by_cases hSum : checksumHolds s
  · obtain ⟨c, hOk⟩ := exists_decodeBits_ok.mpr ⟨hChannel', hAction'.1, hAction'.2, hSum⟩
    simp [hOk, hChannel, hAction, hSum]
  · simp [decodeBits_of_not_checksumHolds hChannel' hAction' hSum, hChannel, hChannel', hAction, hAction', hSum]

/-- Only `DECODE` puts something on `dec_status`. -/
theorem decStatus_of_exec {i : Instr} {s t : State} (h : exec i s = .next t) (hi : ∀ bits, i ≠ .decode bits) :
    t.out.decStatus = s.out.decStatus := by
  cases hPure : pureOp i with
  | true =>
    obtain ⟨o, rfl, -, -, -, hStatus⟩ := exec_pure_next hPure h
    exact hStatus hi
  | false =>
    obtain ⟨-, hStatus, -⟩ := (effect_of_exec h).samePureResults hPure
    exact hStatus

/-- Settles O6: the tests of `DECODE` in their order, and the ports at rest where a step begins. -/
theorem decodeReportsTheFirstDefect : Obligations.DecodeReportsTheFirstDefect := by
  refine ⟨decodeBits_error_iff, fun i s t h hStatus => ?_, fun s t hStep => ?_⟩
  · by_contra hNone
    exact hStatus (decStatus_of_exec h (not_exists.mp hNone))
  · rcases step_next_cases hStep with rfl | ⟨r, i, p, -, -, -, hExec⟩
    · exact .inl rfl
    · by_cases hDecode : ∃ bits, i = .decode bits
      · obtain ⟨bits, rfl⟩ := hDecode
        exact .inr ⟨bits, r.agent, p, hExec⟩
      · exact .inl (decStatus_of_exec hExec (not_exists.mp hDecode))

/-! ### The agents of an operation (R205, R207) -/

/-- The context of a producer. -/
theorem byProducer_iff {s : State} : s.byProducer = true ↔ ∃ p, s.agent = .producer p := by
  unfold State.byProducer
  cases s.agent <;> simp

/-- The contexts of the pure functions. -/
theorem byPureUser_iff {s : State} : s.byPureUser = true ↔ s.agent ≠ .emitter := by
  unfold State.byPureUser
  cases s.agent <;> simp

section
variable {s : State} {listed : Bool} {P : Prop}

/-- An agent that does not exist or is not listed fails the conditions that every operation begins with. -/
theorem require_allowed_refused (hListed : listed = true ↔ P) (h : s.agentExists = false ∨ ¬ P)
    (more : List (Bool × Refusal)) (go : Result) : ∃ why, require (allowed s listed ++ more) go = .refused why := by
  rcases h with hGone | hP
  · exact require_refused (why := .noSuchProducer) (by simp [allowed, hGone]) go
  · have hFalse : listed = false := by simpa using mt hListed.mp hP
    exact require_refused (why := .agentNotAllowed) (by simp [allowed, hFalse]) go

/-- The same for an operation listed for one context. -/
theorem require_only_refused {a : Context} (h : s.agentExists = false ∨ s.agent ≠ a)
    (more : List (Bool × Refusal)) (go : Result) :
    ∃ why, require (allowed s (decide (s.agent = a)) ++ more) go = .refused why :=
  require_allowed_refused decide_eq_true_iff h more go

end

/-- No operation has a step for an agent that does not exist or that R205 does not list. -/
theorem exec_refused_of_agent {i : Instr} {s : State} (h : s.agentExists = false ∨ ¬ listedFor i s.agent) :
    ∃ why, exec i s = .refused why := by
  cases i with
  | send id ch ac n =>
    rcases hc : Command.ofPorts id ch ac n with _ | c
    · exact ⟨_, exec_send_notACommand hc s⟩
    · simp only [exec, execSend, hc]
      exact require_allowed_refused byProducer_iff h _ _
  | shock id ch n => exact require_allowed_refused byProducer_iff h _ _
  | vibrate id ch n => exact require_allowed_refused byProducer_iff h _ _
  | beep id ch n => exact require_allowed_refused byProducer_iff h _ _
  | light id ch n => exact require_allowed_refused byProducer_iff h _ _
  | nop => exact require_allowed_refused byProducer_iff h _ _
  | enq f => exact require_allowed_refused byProducer_iff h _ _
  | abort => exact require_allowed_refused byProducer_iff h _ _
  | complete => exact require_only_refused h _ _
  | emitDone => exact require_only_refused h _ _
  | start f => exact require_only_refused h _ _
  | reset => exact require_only_refused h _ _
  | init => exact require_only_refused h _ _
  | ticks us => exact require_only_refused h [] _
  | encode id ch ac n => exact require_allowed_refused byPureUser_iff h [] _
  | decode bits => exact require_allowed_refused byPureUser_iff h _ _
  | toSignal f => exact require_allowed_refused byPureUser_iff h _ _
  | checksum b0 b1 b2 b3 => exact require_allowed_refused byPureUser_iff h [] _

/-- Settles O36: both clauses are `exec_refused_of_agent`. -/
theorem unlistedAgentsHaveNoStep : Obligations.UnlistedAgentsHaveNoStep := by
  refine ⟨fun i s hUnlisted => exec_refused_of_agent (.inr hUnlisted), fun i s p hp hGone => ?_⟩
  exact exec_refused_of_agent (.inl (by simpa [State.agentExists, hp] using hGone))

/-! ### What raises `InvariantViolation`, and its entry (R195, R196) -/

/-- How `active` and the queue can disagree. -/
theorem active_iff_queue_nil {s : State} :
    (s.active = true ↔ s.queue = []) ↔
      (s.active = true ∧ s.queue = []) ∨ (s.active = false ∧ s.queue ≠ []) := by
  cases s.active <;> simp

/-- Settles O28: the tests of `enqueue_raised`, `abortBacklog_raised` and `completeFront_raised`. -/
theorem disagreementRaisesInvariantViolation : Obligations.DisagreementRaisesInvariantViolation := by
  refine ⟨fun s f hs hRun hRoom hDisagree => ?_, fun s hs hRun hExposed hDisagree => ?_,
    fun s hCompletion hRun hDone hNothing => ?_, fun s f hs hRun hRoom hIdle hQueue hBusy => ?_,
    fun s front second rest hCompletion hRun hDone hActive hQueue hBusy => ?_⟩
  · have hRaised : enqueue f s = .error .raised :=
      enqueue_raised.mpr ((active_iff_queue_nil.mp hDisagree).imp_right fun ⟨hIdle, hQueue⟩ => ⟨hIdle, .inl hQueue⟩)
    exact (exec_enqueuing_next rfl).mpr ⟨hs, hRun, hRoom, .inr ⟨hRaised, rfl⟩⟩
  · have hRaised := abortBacklog_raised.mpr (active_iff_queue_nil.mp hDisagree)
    exact exec_abort_next.mpr ⟨hs, hExposed, hRun, .inr ⟨hRaised, rfl⟩⟩
  · have hRaised := completeFront_raised.mpr (hNothing.imp_right .inl)
    exact exec_complete_next.mpr ⟨hCompletion, hRun, .inr ⟨hDone, .inr ⟨hRaised, rfl⟩⟩⟩
  · have hRaised : enqueue f s = .error .raised := enqueue_raised.mpr (.inr ⟨hIdle, .inr hBusy⟩)
    exact (exec_enqueuing_next rfl).mpr ⟨hs, hRun, hRoom, .inr ⟨hRaised, rfl⟩⟩
  · have hRaised := completeFront_raised.mpr (.inr (.inr ⟨by simp [hQueue], hBusy⟩))
    exact exec_complete_next.mpr ⟨hCompletion, hRun, .inr ⟨hDone, .inr ⟨hRaised, rfl⟩⟩⟩

/-- Settles O29: of the effects only `raise` sets the fault register. -/
theorem faultEntryDiscardsTheStep : Obligations.FaultEntryDiscardsTheStep := by
  intro i s t hHealthy h hFault
  cases effect_of_exec h with
  | raise => rfl
  | reset => exact absurd rfl hFault
  | _ => exact absurd hHealthy hFault

/-! ### The halted state (R197) -/

/-- With a fault recorded, only `RESET` and the pure functions can have a step. -/
theorem exec_refused_of_fault {i : Instr} {s : State} (hFault : s.fault ≠ .none) (hPure : pureOp i = false)
    (hReset : i ≠ .reset) : ∃ why, exec i s = .refused why := by
  have hHalted : s.healthy = false := Bool.eq_false_iff.mpr (mt healthy_iff.mp hFault)
  have hMem : (false, .halted) ∈ running s := by simp [running, hHalted]
  rcases instr_kinds i with
    ⟨f, hi⟩ | rfl | rfl | rfl | ⟨f, rfl⟩ | rfl | rfl | rfl | hi | ⟨id, ch, ac, n, rfl, hNone⟩
  · rw [exec_of_enqueuedFrame hi]
    exact require_refused (why := .halted) (by simp [hMem]) _
  · exact require_refused (why := .halted) (by simp [hMem]) _
  · exact require_refused (why := .halted) (by simp [hMem]) _
  · exact require_refused (why := .halted) (by simp [hHalted]) _
  · exact require_refused (why := .halted) (by simp [hHalted]) _
  · exact absurd rfl hReset
  · exact require_refused (why := .halted) (by simp [hHalted]) _
  · exact require_refused (why := .halted) (by simp [hHalted]) _
  · simp [hPure] at hi
  · exact ⟨_, exec_send_notACommand hNone s⟩

/-- A pure function of an initialised block completes on the operands its rule admits, halted or not. -/
theorem exists_exec_pure {i : Instr} {s : State} (hi : pureOp i = true) (hWf : i.wellFormed = true)
    (hListed : listedFor i s.agent) (hExists : ∀ p, s.agent = .producer p → p < s.par.nprod)
    (hInit : s.initialised = true) : ∃ t, exec i s = .next t := by
  cases i with
  | encode id ch ac n =>
    obtain ⟨c, hc⟩ := Command.ofPorts_of_legal (id := id) (n := n) hWf
    obtain ⟨rfl, rfl, rfl, rfl⟩ := Command.ofPorts_eq_some.mp hc
    exact ⟨_, exec_encode_command ⟨hListed, hExists⟩ c⟩
  | decode bits =>
    have hLength : 40 ≤ bits.length := of_decide_eq_true hWf
    rcases hc : decodeBits bits with e | c
    · exact ⟨_, exec_decode_error ⟨hListed, hExists⟩ hLength hc⟩
    · exact ⟨_, exec_decode_ok ⟨hListed, hExists⟩ hLength hc⟩
  | toSignal f => exact ⟨_, (exec_toSignal ⟨hListed, hExists⟩ f).trans (if_pos hInit)⟩
  | checksum b0 b1 b2 b3 => exact ⟨_, exec_checksum ⟨hListed, hExists⟩ b0 b1 b2 b3⟩
  | ticks us => exact ⟨_, exec_ticks hListed us⟩
  | _ => cases hi

/-- Settles O30: `exec_refused_of_fault`, `exists_exec_pure`, and the operations that write `fault` (R31). -/
theorem haltedBlockOnlyResets : Obligations.HaltedBlockOnlyResets := by
  refine ⟨fun i s hFault hPure hReset => exec_refused_of_fault hFault hPure hReset,
    fun i s hi hWf hListed hExists hInit => exists_exec_pure hi hWf hListed hExists hInit,
    fun i s t hFault h hHealthy => ?_⟩
  obtain ⟨-, -, -, -, -, -, -, hCleared, -, -⟩ := flagsAreWrittenOnlyByTheirOperations i s t h
  exact hCleared hHealthy hFault

/-! ### No fault under the invariant (R195) -/

/-- Once configured, `COMPLETE` of a notification is done or raises. -/
theorem completeFront_ok_or_raised {s : State} (hInit : s.initialised = true) :
    (∃ t, completeFront s = .ok t) ∨ completeFront s = .error .raised := by
  cases hActive : s.active with
  | false => exact .inr (completeFront_raised.mpr (.inl hActive))
  | true =>
    rcases hQueue : s.queue with _ | ⟨front, _ | ⟨second, rest⟩⟩
    · exact .inr (completeFront_raised.mpr (.inr (.inl hQueue)))
    · exact .inl ⟨_, completeFront_ok.mpr (.inl ⟨front, hActive, hQueue, rfl⟩)⟩
    · cases hBusy : s.emBusy with
      | true => exact .inr (completeFront_raised.mpr (.inr (.inr ⟨by simp [hQueue], hBusy⟩)))
      | false =>
        exact .inl ⟨_, completeFront_ok.mpr (.inr ⟨front, second, rest, hActive, hQueue, hBusy, hInit, rfl⟩)⟩

/-- An operation that is done or raises does not stop with a fault of the model. -/
theorem settle_ne_fault {s : State} {a : Atomic} (h : (∃ t, a = .ok t) ∨ a = .error .raised) (r : Fault) :
    settle s a ≠ .fault r := by
  obtain ⟨t, ht⟩ := exists_settle_next (s := s) h
  simp [ht]

/-- A pure function does not stop with a fault. -/
theorem exec_pure_ne_fault {i : Instr} (hi : pureOp i = true) (s : State) (r : Fault) : exec i s ≠ .fault r := by
  intro h
  cases i with
  | encode id ch ac n =>
    have hGo := (require_fault h).2
    split at hGo <;> cases hGo
  | decode bits =>
    have hGo := (require_fault h).2
    split at hGo <;> cases hGo
  | toSignal f => cases (require_fault h).2
  | checksum b0 b1 b2 b3 => cases (require_fault h).2
  | ticks us => cases (require_fault h).2
  | _ => cases hi

/-- Only a `START` on its own, in the context `inside`, stops with a fault: the operations of the agents that start a
train are enabled once configured (R233, R44). -/
theorem inside_of_exec_fault {i : Instr} {s : State} {r : Fault} (h : exec i s = .fault r) : s.agent = .inside := by
  rcases instr_kinds i with
    ⟨f, hi⟩ | rfl | rfl | rfl | ⟨f, rfl⟩ | rfl | rfl | rfl | hi | ⟨id, ch, ac, n, rfl, hNone⟩
  · rw [exec_of_enqueuedFrame hi] at h
    obtain ⟨hAll, hGo⟩ := require_fault h
    have hInit : s.initialised = true := hAll (s.initialised, .notInitialised) (by simp [running])
    exact absurd hGo (settle_ne_fault (enqueue_ok_or_raised hInit f) r)
  · exact absurd (require_fault h).2 (settle_ne_fault (abortBacklog_ok_or_raised s) r)
  · obtain ⟨hAll, hGo⟩ := require_fault h
    have hInit : s.initialised = true := hAll (s.initialised, .notInitialised) (by simp [running])
    split at hGo
    · exact absurd hGo (settle_ne_fault (completeFront_ok_or_raised hInit) r)
    · cases hGo
  · cases (require_fault h).2
  · exact of_decide_eq_true ((require_fault h).1 (decide (s.agent = .inside), .agentNotAllowed) (by simp [allowed]))
  · cases (require_fault h).2
  · cases (require_fault h).2
  · cases (require_fault h).2
  · exact absurd h (exec_pure_ne_fault hi s r)
  · rw [exec_send_notACommand hNone] at h
    cases h

/-- Settles O52: `inside_of_exec_fault`, and the invariant after the operation (`Effect.inv`). -/
theorem invariantViolationIsUnreachable : Obligations.InvariantViolationIsUnreachable :=
  fun _ _ hInv hOutside =>
    ⟨fun _ h => hOutside (inside_of_exec_fault h), fun _ h => ((effect_of_exec h).inv hInv hOutside).healthy⟩

end Sys2Proof.Machine
end

section
/-! SUPPORT. `RESET` and `INIT` (`spec/70_reset_and_hazards.md`): what each answers the host, and the obligations of this
family. -/

namespace Sys2Proof.Machine

/-- Work pending is the opposite of quiet (R11, R239). -/
theorem workPending_true {s : State} : s.workPending = true ↔ ¬ s.quiet := by
  rw [← workPending_false, Bool.not_eq_false]

section
variable {s : State} (hHost : s.agent = .host)
include hHost

/-- For the host, `RESET` depends on the fault and on the work pending (R230, R239). -/
theorem exec_reset :
    exec .reset s = if !s.healthy || !s.workPending then .next s.toReset else .refused .workPending := by
  rw [exec, execReset, require_append, require_agent hHost (by simp)]
  rfl

section
variable (hHealthy : s.fault = .none)
include hHealthy

/-- For the host of a healthy block, `INIT` tests that it is the first, that nothing is pending and that the
configuration is well formed (R231, R239, R35). -/
theorem exec_init :
    exec .init s =
      if !s.initialised then
        if !s.workPending then
          if (loadedCfg s.par).wellFormed s.par.durW then .next { s with cfg := loadedCfg s.par, initialised := true }
          else .refused .illFormedConfiguration
        else .refused .workPending
      else .refused .alreadyInitialised := by
  rw [exec, execInit, require_append, require_agent hHost (by simp), healthy_iff.mpr hHealthy]
  rfl

/-- Without a fault `RESET` has no step while work is pending (R239, U6). -/
theorem exec_reset_workPending (hWork : ¬ s.quiet) : exec .reset s = .refused .workPending := by
  rw [exec_reset hHost, healthy_iff.mpr hHealthy, workPending_true.mpr hWork]
  rfl

/-- A second `INIT` has no step (R231, U6). -/
theorem exec_init_alreadyInitialised (hInit : s.initialised = true) :
    exec .init s = .refused .alreadyInitialised := by
  rw [exec_init hHost hHealthy, hInit]
  rfl

/-- A configuration that is not well formed is not loaded (R35, U10). -/
theorem exec_init_illFormed (hInit : s.initialised = false) (hQuiet : s.quiet)
    (hIll : (loadedCfg s.par).wellFormed s.par.durW = false) : exec .init s = .refused .illFormedConfiguration := by
  rw [exec_init hHost hHealthy, hInit, workPending_false.mpr hQuiet, hIll]
  rfl

end

end

/-- `INIT` has no step while work is pending, whoever requests it (R239, U6). -/
theorem exec_init_refused_of_workPending {s : State} (hWork : ¬ s.quiet) : ∃ why, exec .init s = .refused why :=
  require_refused (why := .workPending) (by simp [workPending_true.mpr hWork]) _

/-- Settles O45: by `exec_reset_next` the answer is `s.toReset`, and each value is one of its fields. -/
theorem resetLeavesTheResetState : Obligations.ResetLeavesTheResetState := fun s hHost hAdmitted =>
  ⟨s.toReset, exec_reset_next.mpr ⟨hHost, hAdmitted, rfl⟩,
    rfl, rfl, rfl, rfl, rfl, rfl, rfl, rfl, rfl, rfl, rfl, rfl, ⟨rfl, rfl, rfl, rfl⟩, rfl⟩

/-- Settles O46: the tests of `RESET` and of `INIT` for work pending, and of `INIT` for an earlier one. -/
theorem noResetOrInitWhileWorkIsPending : Obligations.NoResetOrInitWhileWorkIsPending :=
  ⟨fun _ hHost hHealthy hWork =>
      ⟨exec_reset_workPending hHost hHealthy hWork, exec_init_refused_of_workPending hWork⟩,
    fun _ hHost hHealthy hInit => exec_init_alreadyInitialised hHost hHealthy hInit⟩

/-- Settles O47: by `exec_init_next` a well-formed configuration is loaded, and that is `loadedCfg`; another is refused. -/
theorem initLoadsTheConfiguration : Obligations.InitLoadsTheConfiguration :=
  ⟨fun _ hHost hHealthy hInit hQuiet hWf => exec_init_next.mpr ⟨hHost, hHealthy, hInit, hQuiet, hWf, rfl⟩,
    fun _ hHost hHealthy hInit hQuiet hIll => exec_init_illFormed hHost hHealthy hInit hQuiet hIll⟩

end Sys2Proof.Machine
end
